-- ==== Sys2Proof/Word.lean ====
section
/-! DEFINITION. The word types of the machine (00_scope.md R8, R14): unsigned bit vectors of the spec's fixed widths, and
the number of a general register. -/

namespace Sys2Proof

/-- A memory byte or the contents of a general register or timer (R8 `V_WIDTH`, `TIMER_WIDTH`). -/
abbrev Byte := BitVec 8

/-- An instruction word, and the 16-bit storage of PC and of a stack slot (R36, R41, R100). -/
abbrev Word := BitVec 16

/-- A 12-bit address: the index register and the field NNN (R34, R101). -/
abbrev Addr := BitVec 12

/-- The number of a general register V0-VF (R30: every value 0x0-0xF names one). -/
abbrev RegIx := Fin 16

/-- VF, the register that doubles as the flag register (R32). -/
abbrev regF : RegIx := 15

end Sys2Proof
end

