-- ==== Sys2Proof/Syntax.lean ====
section
/-! DEFINITION. The 34 instructions of the CHIP-8 base set (30_encoding.md R104), one constructor per row of
spec/opcode_table.json, in the table's order, with the operand fields of R101 and R102. -/

namespace Sys2Proof

/-- A decoded instruction. Register operands are register numbers, NN and NNN are unsigned immediates used as they stand
(R102). The shifts keep the Y field that they ignore, so that the encoding is whole (R110, R112). -/
inductive Instr where
  /-- 00E0, CLS (R291). -/
  | cls
  /-- 00EE, RET (R160). -/
  | ret
  /-- 1NNN, JP NNN (R161). -/
  | jp (nnn : Addr)
  /-- 2NNN, CALL NNN (R162). -/
  | call (nnn : Addr)
  /-- 3XNN, SE Vx, NN (R163). -/
  | seImm (x : RegIx) (nn : Byte)
  /-- 4XNN, SNE Vx, NN (R164). -/
  | sneImm (x : RegIx) (nn : Byte)
  /-- 5XY0, SE Vx, Vy (R165). -/
  | seReg (x y : RegIx)
  /-- 6XNN, LD Vx, NN (R201). -/
  | ldImm (x : RegIx) (nn : Byte)
  /-- 7XNN, ADD Vx, NN (R202). -/
  | addImm (x : RegIx) (nn : Byte)
  /-- 8XY0, LD Vx, Vy (R203). -/
  | ldReg (x y : RegIx)
  /-- 8XY1, OR Vx, Vy (R204). -/
  | orReg (x y : RegIx)
  /-- 8XY2, AND Vx, Vy (R205). -/
  | andReg (x y : RegIx)
  /-- 8XY3, XOR Vx, Vy (R206). -/
  | xorReg (x y : RegIx)
  /-- 8XY4, ADD Vx, Vy (R207). -/
  | addReg (x y : RegIx)
  /-- 8XY5, SUB Vx, Vy (R208). -/
  | sub (x y : RegIx)
  /-- 8XY6, SHR Vx, Vy (R209); Y is ignored. -/
  | shr (x y : RegIx)
  /-- 8XY7, SUBN Vx, Vy (R210). -/
  | subn (x y : RegIx)
  /-- 8XYE, SHL Vx, Vy (R211); Y is ignored. -/
  | shl (x y : RegIx)
  /-- 9XY0, SNE Vx, Vy (R166). -/
  | sneReg (x y : RegIx)
  /-- ANNN, LD I, NNN (R250). -/
  | ldI (nnn : Addr)
  /-- BNNN, JP V0, NNN (R167). -/
  | jpV0 (nnn : Addr)
  /-- CXNN, RND Vx, NN (R212). -/
  | rnd (x : RegIx) (nn : Byte)
  /-- DXYN, DRW Vx, Vy, N (R292). -/
  | drw (x y : RegIx) (n : BitVec 4)
  /-- EX9E, SKP Vx (R320). -/
  | skp (x : RegIx)
  /-- EXA1, SKNP Vx (R321). -/
  | sknp (x : RegIx)
  /-- FX07, LD Vx, DT (R323). -/
  | ldVxDt (x : RegIx)
  /-- FX0A, LD Vx, K (R322). -/
  | ldVxK (x : RegIx)
  /-- FX15, LD DT, Vx (R324). -/
  | ldDtVx (x : RegIx)
  /-- FX18, LD ST, Vx (R325). -/
  | ldStVx (x : RegIx)
  /-- FX1E, ADD I, Vx (R251). -/
  | addI (x : RegIx)
  /-- FX29, LD F, Vx (R252). -/
  | ldF (x : RegIx)
  /-- FX33, LD B, Vx (R253). -/
  | ldB (x : RegIx)
  /-- FX55, LD [I], Vx (R254). -/
  | storeRegs (x : RegIx)
  /-- FX65, LD Vx, [I] (R255). -/
  | loadRegs (x : RegIx)
  deriving DecidableEq, Repr

end Sys2Proof
end

