-- ==== Sys2Proof/WellFormed.lean ====
section
/-! DEFINITION. Which words are instructions. An `Instr` cannot be ill-formed, because its operands carry their widths in
their types (10_state.md R30, R31: a value out of range is a type error). What can be ill-formed is a word, or a string of
bytes: the checks here are the opcode map of 30_encoding.md R104 row by row, as mask and pattern, written from
spec/opcode_table.json and apart from the decoder. -/

namespace Sys2Proof

/-- A row of the opcode map: a word is of this row when its bits under `mask` are `pattern`. -/
structure OpcodeRow where
  mask : Word
  pattern : Word
  deriving DecidableEq, Repr

/-- Does the word select the row (R104 "selects when")? -/
def OpcodeRow.selects (r : OpcodeRow) (w : Word) : Bool := w &&& r.mask == r.pattern

/-- Rows whose every nibble is fixed: class 0 is decoded on all of NNN (R105). -/
def class0Rows : List OpcodeRow := [⟨0xFFFF, 0x00E0⟩, ⟨0xFFFF, 0x00EE⟩]

/-- Rows selected by the class alone. -/
def plainRows : List OpcodeRow :=
  [⟨0xF000, 0x1000⟩, ⟨0xF000, 0x2000⟩, ⟨0xF000, 0x3000⟩, ⟨0xF000, 0x4000⟩, ⟨0xF000, 0x6000⟩, ⟨0xF000, 0x7000⟩,
   ⟨0xF000, 0xA000⟩, ⟨0xF000, 0xB000⟩, ⟨0xF000, 0xC000⟩, ⟨0xF000, 0xD000⟩]

/-- Rows selected by the class and N: classes 5, 8 and 9 (R106, R109). -/
def nRows : List OpcodeRow :=
  [⟨0xF00F, 0x5000⟩, ⟨0xF00F, 0x8000⟩, ⟨0xF00F, 0x8001⟩, ⟨0xF00F, 0x8002⟩, ⟨0xF00F, 0x8003⟩, ⟨0xF00F, 0x8004⟩,
   ⟨0xF00F, 0x8005⟩, ⟨0xF00F, 0x8006⟩, ⟨0xF00F, 0x8007⟩, ⟨0xF00F, 0x800E⟩, ⟨0xF00F, 0x9000⟩]

/-- Rows selected by the class and NN: classes E and F (R107). -/
def nnRows : List OpcodeRow :=
  [⟨0xF0FF, 0xE09E⟩, ⟨0xF0FF, 0xE0A1⟩, ⟨0xF0FF, 0xF007⟩, ⟨0xF0FF, 0xF00A⟩, ⟨0xF0FF, 0xF015⟩, ⟨0xF0FF, 0xF018⟩,
   ⟨0xF0FF, 0xF01E⟩, ⟨0xF0FF, 0xF029⟩, ⟨0xF0FF, 0xF033⟩, ⟨0xF0FF, 0xF055⟩, ⟨0xF0FF, 0xF065⟩]

/-- The opcode map of R104: 34 rows. -/
def opcodeMap : List OpcodeRow := class0Rows ++ plainRows ++ nRows ++ nnRows

/-- The word selects a row of the opcode map; every other word is an unknown opcode (R108). -/
def wellFormedWord (w : Word) : Bool := opcodeMap.any (·.selects w)

/-- A string of bytes is one instruction: exactly two bytes, high byte first, whose word selects a row (R75, R100). -/
def wellFormedBytes : List Byte → Bool
  | [hi, lo] => wellFormedWord (hi ++ lo)
  | _ => false

end Sys2Proof
end

