-- ==== Sys2Proof/Decode.lean ====
section
/-! DEFINITION. The decoder (30_encoding.md R101-R109), a pure total function of the word; the encoder (R104, R112), which
puts the fields back by concatenation; and both over bytes, high byte first (20_memory.md R75). -/

namespace Sys2Proof

/-! ### Fields (R101) -/

/-- class = w[15:12]. -/
def fieldClass (w : Word) : BitVec 4 := w.extractLsb' 12 4

/-- X = w[11:8], a register number. -/
def fieldX (w : Word) : RegIx := (w.extractLsb' 8 4).toFin

/-- Y = w[7:4], a register number. -/
def fieldY (w : Word) : RegIx := (w.extractLsb' 4 4).toFin

/-- N = w[3:0]. -/
def fieldN (w : Word) : BitVec 4 := w.extractLsb' 0 4

/-- NN = w[7:0]. -/
def fieldNN (w : Word) : Byte := w.extractLsb' 0 8

/-- NNN = w[11:0]. -/
def fieldNNN (w : Word) : Addr := w.extractLsb' 0 12

/-! ### Decoding -/

/-- What a word decodes to: one instruction, or an unknown opcode, which keeps its word (R103, R108). -/
inductive Decoded where
  | known (i : Instr)
  | unknown (w : Word)
  deriving DecidableEq, Repr

/-- Class 0, on all of NNN (R105). -/
def decodeClass0 (w : Word) : Decoded :=
  if fieldNNN w = 0x0E0#12 then .known .cls
  else if fieldNNN w = 0x0EE#12 then .known .ret
  else .unknown w

/-- Class 8, on N (R106). -/
def decodeClass8 (w : Word) : Decoded :=
  match (fieldN w).toNat with
  | 0x0 => .known (.ldReg (fieldX w) (fieldY w))
  | 0x1 => .known (.orReg (fieldX w) (fieldY w))
  | 0x2 => .known (.andReg (fieldX w) (fieldY w))
  | 0x3 => .known (.xorReg (fieldX w) (fieldY w))
  | 0x4 => .known (.addReg (fieldX w) (fieldY w))
  | 0x5 => .known (.sub (fieldX w) (fieldY w))
  | 0x6 => .known (.shr (fieldX w) (fieldY w))
  | 0x7 => .known (.subn (fieldX w) (fieldY w))
  | 0xE => .known (.shl (fieldX w) (fieldY w))
  | _ => .unknown w

/-- Class E, on NN (R107). -/
def decodeClassE (w : Word) : Decoded :=
  if fieldNN w = 0x9E#8 then .known (.skp (fieldX w))
  else if fieldNN w = 0xA1#8 then .known (.sknp (fieldX w))
  else .unknown w

/-- Class F, on NN (R107). -/
def decodeClassF (w : Word) : Decoded :=
  if fieldNN w = 0x07#8 then .known (.ldVxDt (fieldX w))
  else if fieldNN w = 0x0A#8 then .known (.ldVxK (fieldX w))
  else if fieldNN w = 0x15#8 then .known (.ldDtVx (fieldX w))
  else if fieldNN w = 0x18#8 then .known (.ldStVx (fieldX w))
  else if fieldNN w = 0x1E#8 then .known (.addI (fieldX w))
  else if fieldNN w = 0x29#8 then .known (.ldF (fieldX w))
  else if fieldNN w = 0x33#8 then .known (.ldB (fieldX w))
  else if fieldNN w = 0x55#8 then .known (.storeRegs (fieldX w))
  else if fieldNN w = 0x65#8 then .known (.loadRegs (fieldX w))
  else .unknown w

/-- The decoder (R103, R104): the class, and for classes 0, 5, 8, 9, E and F a secondary field (R105-R107, R109). -/
def decode (w : Word) : Decoded :=
  match (fieldClass w).toNat with
  | 0x0 => decodeClass0 w
  | 0x1 => .known (.jp (fieldNNN w))
  | 0x2 => .known (.call (fieldNNN w))
  | 0x3 => .known (.seImm (fieldX w) (fieldNN w))
  | 0x4 => .known (.sneImm (fieldX w) (fieldNN w))
  | 0x5 => if fieldN w = 0#4 then .known (.seReg (fieldX w) (fieldY w)) else .unknown w
  | 0x6 => .known (.ldImm (fieldX w) (fieldNN w))
  | 0x7 => .known (.addImm (fieldX w) (fieldNN w))
  | 0x8 => decodeClass8 w
  | 0x9 => if fieldN w = 0#4 then .known (.sneReg (fieldX w) (fieldY w)) else .unknown w
  | 0xA => .known (.ldI (fieldNNN w))
  | 0xB => .known (.jpV0 (fieldNNN w))
  | 0xC => .known (.rnd (fieldX w) (fieldNN w))
  | 0xD => .known (.drw (fieldX w) (fieldY w) (fieldN w))
  | 0xE => decodeClassE w
  | _ => decodeClassF w

/-- Why a string of bytes gives no instruction. -/
inductive DecodeReject where
  /-- The word selects no row of the opcode map (R108). -/
  | unknownOpcode (w : Word)
  /-- Fewer than the two bytes every instruction has (R100). -/
  | truncated
  deriving DecidableEq, Repr

/-- Decoding from bytes: the first byte is w[15:8], the second w[7:0] (R75); the rest of the bytes is handed back. -/
def decodeBytes : List Byte → Except DecodeReject (Instr × List Byte)
  | hi :: lo :: rest =>
    match decode (hi ++ lo) with
    | .known i => .ok (i, rest)
    | .unknown w => .error (.unknownOpcode w)
  | _ => .error .truncated

/-! ### Encoding -/

/-- A register number as its 4-bit field. -/
def regField (x : RegIx) : BitVec 4 := BitVec.ofFin x

/-- class, NNN. -/
def packNNN (c : BitVec 4) (nnn : Addr) : Word := c ++ nnn

/-- class, X, NN. -/
def packXNN (c : BitVec 4) (x : RegIx) (nn : Byte) : Word := c ++ (regField x ++ nn)

/-- class, X, Y, N. -/
def packXYN (c : BitVec 4) (x y : RegIx) (n : BitVec 4) : Word := c ++ (regField x ++ (regField y ++ n))

/-- The word of an instruction: the pattern of R104 with its fields filled in (R112). -/
def encode : Instr → Word
  | .cls => 0x00E0#16
  | .ret => 0x00EE#16
  | .jp nnn => packNNN 0x1#4 nnn
  | .call nnn => packNNN 0x2#4 nnn
  | .seImm x nn => packXNN 0x3#4 x nn
  | .sneImm x nn => packXNN 0x4#4 x nn
  | .seReg x y => packXYN 0x5#4 x y 0x0#4
  | .ldImm x nn => packXNN 0x6#4 x nn
  | .addImm x nn => packXNN 0x7#4 x nn
  | .ldReg x y => packXYN 0x8#4 x y 0x0#4
  | .orReg x y => packXYN 0x8#4 x y 0x1#4
  | .andReg x y => packXYN 0x8#4 x y 0x2#4
  | .xorReg x y => packXYN 0x8#4 x y 0x3#4
  | .addReg x y => packXYN 0x8#4 x y 0x4#4
  | .sub x y => packXYN 0x8#4 x y 0x5#4
  | .shr x y => packXYN 0x8#4 x y 0x6#4
  | .subn x y => packXYN 0x8#4 x y 0x7#4
  | .shl x y => packXYN 0x8#4 x y 0xE#4
  | .sneReg x y => packXYN 0x9#4 x y 0x0#4
  | .ldI nnn => packNNN 0xA#4 nnn
  | .jpV0 nnn => packNNN 0xB#4 nnn
  | .rnd x nn => packXNN 0xC#4 x nn
  | .drw x y n => packXYN 0xD#4 x y n
  | .skp x => packXNN 0xE#4 x 0x9E#8
  | .sknp x => packXNN 0xE#4 x 0xA1#8
  | .ldVxDt x => packXNN 0xF#4 x 0x07#8
  | .ldVxK x => packXNN 0xF#4 x 0x0A#8
  | .ldDtVx x => packXNN 0xF#4 x 0x15#8
  | .ldStVx x => packXNN 0xF#4 x 0x18#8
  | .addI x => packXNN 0xF#4 x 0x1E#8
  | .ldF x => packXNN 0xF#4 x 0x29#8
  | .ldB x => packXNN 0xF#4 x 0x33#8
  | .storeRegs x => packXNN 0xF#4 x 0x55#8
  | .loadRegs x => packXNN 0xF#4 x 0x65#8

/-- The high byte of a word, stored at the lower address (R75). -/
def hiByte (w : Word) : Byte := w.extractLsb' 8 8

/-- The low byte of a word, stored at the higher address (R75). -/
def loByte (w : Word) : Byte := w.extractLsb' 0 8

/-- The two bytes of an instruction as they lie in memory (R75). -/
def encodeBytes (i : Instr) : List Byte := [hiByte (encode i), loByte (encode i)]

/-! ### The opcode table's numbering -/

/-- A word given by the opcode table's numbering: the bits above `nbits` are 0. One word holds the whole instruction, and
the table numbers its bits as R14 does. -/
def tableWord (nbits w : Nat) : Word := BitVec.ofNat 16 (w % 2 ^ nbits)

/-- The instruction the decoder reads from a word of the opcode table, laid out in memory high byte first. -/
def decodeTableWord (nbits w : Nat) : Option Instr :=
  match decodeBytes [hiByte (tableWord nbits w), loByte (tableWord nbits w)] with
  | .ok (i, _) => some i
  | .error _ => none

end Sys2Proof
end

