-- ==== Sys2Proof/Config.lean ====
section
/-! DEFINITION. What is fixed for this hardware (00_scope.md R8), the defaults of what the host chooses (R9), and the one
free value: the byte the `rand` port supplies (42_alu.md R213). -/

namespace Sys2Proof.Config

/-- `MEM_SIZE`: 4096 byte cells, addresses 0x000-0xFFF (R8). -/
def memSize : Nat := 4096

/-- The highest address of the address space (R8, R49). -/
def lastAddr : Nat := 0xFFF

/-- `FONT_BASE` is 0; the font table is 16 glyphs of 5 bytes (R8, R82). -/
def fontSize : Nat := 80

/-- `PROGRAM_BASE`: where a program is loaded and where execution starts (R8, R403). -/
def programBase : Nat := 0x200

/-- `ROM_MAX_LEN`: 0xFFF - 0x200 (R8, R352, conflict C8). -/
def romMaxLen : Nat := 3583

/-- `STACK_DEPTH` (R8, R40). -/
def stackDepth : Nat := 16

/-- `K`, the suggested number of instructions per tick (R9, R144, 92_eei_decisions.md D20). -/
def defaultStepsPerTick : Nat := 10

/-- The `n`-th byte the `rand` port supplies (R213). It has no body: any value in [0,255], under no law, so that what is
proved of a run holds for every draw sequence. Log 4. -/
opaque randByte : Nat → Byte

end Sys2Proof.Config
end

