-- ==== Sys2Proof/Machine/Font.lean ====
section
/-! DEFINITION. The default of the parameter `FONT` (20_memory.md R83): the standard CHIP-8 hexadecimal font. The source
gives no byte of it; the spec takes it from general knowledge. PRESUMED, Log 7. -/

namespace Sys2Proof.Machine

/-- The type of the parameter `FONT`: 80 bytes, glyph d at 5*d (R82). -/
abbrev Font := Vector Byte 80

/-- The glyphs of R83, 0 to F, five bytes each. -/
def defaultFont : Font :=
  #v[0xF0, 0x90, 0x90, 0x90, 0xF0, -- 0
     0x20, 0x60, 0x20, 0x20, 0x70, -- 1
     0xF0, 0x10, 0xF0, 0x80, 0xF0, -- 2
     0xF0, 0x10, 0xF0, 0x10, 0xF0, -- 3
     0x90, 0x90, 0xF0, 0x10, 0x10, -- 4
     0xF0, 0x80, 0xF0, 0x10, 0xF0, -- 5
     0xF0, 0x80, 0xF0, 0x90, 0xF0, -- 6
     0xF0, 0x10, 0x20, 0x40, 0x40, -- 7
     0xF0, 0x90, 0xF0, 0x90, 0xF0, -- 8
     0xF0, 0x90, 0xF0, 0x10, 0xF0, -- 9
     0xF0, 0x90, 0xF0, 0x90, 0x90, -- A
     0xE0, 0x90, 0xE0, 0x90, 0xE0, -- B
     0xF0, 0x80, 0x80, 0x80, 0xF0, -- C
     0xE0, 0x90, 0x90, 0x90, 0xE0, -- D
     0xF0, 0x80, 0xF0, 0x80, 0xF0, -- E
     0xF0, 0x80, 0xF0, 0x80, 0x80] -- F

end Sys2Proof.Machine
end

