-- ==== Sys2Proof/Machine/State.lean ====
section
/-! DEFINITION. The state of the block (10_state.md): every piece the spec gives it, the parameters of a run (00_scope.md
R9), and the model's own fields for the ports of R11. Plain data throughout. -/

namespace Sys2Proof.Machine

/-- The lifecycle of the block (R56). -/
inductive Status where
  /-- Before the first successful `init`, or after one that failed: ticks do nothing. -/
  | unloaded
  /-- After a successful `init`: ticks execute. -/
  | running
  /-- After a fault: ticks do nothing, and only `init` leaves it. -/
  | halted
  deriving DecidableEq, Repr

/-- The names of the error taxonomy (60_exceptions.md R350). -/
inductive FaultCode where
  /-- Load error: the ROM has no byte (R351). -/
  | romEmpty
  /-- Load error: the ROM has more than 3583 bytes (R352). -/
  | romTooLarge
  /-- An address above 0xFFF reached the bus (R353). -/
  | memoryBounds
  /-- 2NNN with SP = 16 (R354). -/
  | stackOverflow
  /-- 00EE with SP = 0 (R355). -/
  | stackUnderflow
  /-- An event only; no rule records it (R358). -/
  | unknownOpcode
  /-- EX9E or EXA1 with Vx > 0xF (R356). -/
  | keyIndexRange
  deriving DecidableEq, Repr

/-- The numeric code of R350. -/
def FaultCode.number : FaultCode → Nat
  | .romEmpty => 1
  | .romTooLarge => 2
  | .memoryBounds => 3
  | .stackOverflow => 4
  | .stackUnderflow => 5
  | .unknownOpcode => 6
  | .keyIndexRange => 7

/-- The fault record (R57). `info` is the out-of-range address, the SP value, the key index or the ROM length. -/
structure FaultRecord where
  code : FaultCode
  /-- The address of the faulting instruction; none for load errors. -/
  pc : Option Word
  /-- The faulting instruction; none for fetch faults and load errors. -/
  word : Option Word
  info : Nat
  deriving DecidableEq, Repr

/-- The parameter `BOUNDS_POLICY` (00_scope.md R9, 20_memory.md R74). -/
inductive BoundsPolicy where
  /-- A data access out of range raises MemoryBounds. -/
  | halt
  /-- A read out of range gives 0 and a write is dropped. -/
  | permissive
  deriving DecidableEq, Repr

/-- Memory as (address, byte) pairs in one canonical form: addresses strictly rising, no pair equal to what an unlisted
address reads as (`unlistedByte`; the form is `Memory.wf`). -/
abbrev Memory := List Host.Cell

/-- The framebuffer (R50): row y is a word of 64 one-bit pixels, bit x being the pixel of column x. -/
abbrev Frame := Vector (BitVec 64) 32

/-- An event of the output ports `diag` and `frame_updated` (60_exceptions.md R357). -/
inductive Event where
  /-- UnknownOpcode(pc, word) (R358). -/
  | unknownOpcode (pc word : Word)
  /-- BoundsIgnored(addr) (R359). -/
  | boundsIgnored (addr : Nat)
  /-- frame_updated(snapshot) (44_display.md R300). -/
  | frameUpdated (snapshot : Frame)
  deriving DecidableEq, Repr

/-- A call of the host on the block's command ports (00_scope.md R11, 60_exceptions.md R395). -/
inductive HostCall where
  /-- `init(rom)` (70_reset_and_hazards.md R400). -/
  | init (rom : List Byte)
  /-- `tick(k, keys)` (40_pipeline.md R140). -/
  | tick (k : Nat) (keys : BitVec 16)
  deriving DecidableEq, Repr

/-- Where the scheduler stands (40_pipeline.md R140). -/
inductive Phase where
  /-- Between two ticks: the host's next call decides what happens (R146). -/
  | boundary
  /-- In a tick: `left` more steps, then the timer decrement. -/
  | steps (left : Nat)
  /-- In a tick whose k the model leaves open: step after step, and its end is not reached. Log 2. -/
  | unbounded
  deriving DecidableEq, Repr

/-- The state of the block. -/
structure State where
  /-- V0-VF (R30). -/
  v : Vector Byte 16
  /-- The index register (R34). -/
  i : Addr
  /-- The program counter, 16-bit storage (R36). -/
  pc : Word
  /-- The stack pointer, a count of occupied slots (R40). -/
  sp : Fin 17
  /-- The return-address slots, 16 bits each (R41). -/
  stack : Vector Word 16
  /-- The delay timer (R44). -/
  dt : Byte
  /-- The sound timer (R44). -/
  st : Byte
  /-- M[0x000..0xFFF] (R49). -/
  mem : Memory
  /-- The framebuffer (R50). -/
  fb : Frame
  /-- This tick's keypad snapshot: bit k is logical key k, 1 meaning pressed (R47). -/
  keys : BitVec 16
  /-- The lifecycle (R56). -/
  status : Status
  /-- The fault record, or none (R57). -/
  fault : Option FaultRecord
  /-- Parameter `BOUNDS_POLICY`, fixed for a run (00_scope.md R9). Log 6. -/
  policy : BoundsPolicy
  /-- Parameter `FONT`, fixed for a run (00_scope.md R9). Log 7. -/
  font : Font
  /-- The model's own: where the scheduler stands. Log 2. -/
  phase : Phase
  /-- The model's own: host calls not yet served, the next one first. Log 3. -/
  calls : List HostCall
  /-- The model's own: how many bytes the `rand` port has supplied (42_alu.md R213). Log 4. -/
  draws : Nat
  /-- The model's own: the events emitted so far, in order (60_exceptions.md R357). Log 5. -/
  events : List Event
  deriving DecidableEq, Repr

/-- Why a step can stop without a next state. A fault of the block is none of these: the block takes it, and the machine
goes to a next state whose status is Halted (60_exceptions.md R360). -/
inductive Fault where
  /-- Raised by `step` at a tick boundary at which the host has issued no call: the block makes no tick of its own
  (00_scope.md R12, 40_pipeline.md R146). Safe: the model stops where the block waits. -/
  | awaitingHost
  /-- Raised by `step` when an instruction step is due and the status is not Running: Step is defined only while
  status = Running (40_pipeline.md R137). Safe: no run from `State.reset` reaches it. -/
  | notRunning
  deriving DecidableEq, Repr

/-- Why a step can have no meaning. -/
inductive Refusal where
  /-- Raised by `exec` alone, for an instruction the model gives no meaning yet. Safe: nothing is claimed of it. No arm of
  this model answers with it. -/
  | notModelled (mnemonic : String)
  deriving DecidableEq, Repr

/-- The state right after a successful `init` (R59, R400), no byte of the ROM placed (Log 1), inside a tick whose number
of steps is open (Log 2) and whose keypad snapshot, which R395 leaves to the host, is the 0 that `init` left (DESIGN
CHOICE, Log 22). Memory lists nothing: the font and the zeros of R401 are what unlisted addresses read as. -/
def State.reset : State where
  v := Vector.replicate 16 0
  i := 0
  pc := BitVec.ofNat 16 Config.programBase
  sp := 0
  stack := Vector.replicate 16 0
  dt := 0
  st := 0
  mem := []
  fb := Vector.replicate 32 0
  keys := 0
  status := .running
  fault := none
  policy := .halt
  font := defaultFont
  phase := .unbounded
  calls := []
  draws := 0
  events := []

end Sys2Proof.Machine
end

