-- ==== Sys2Proof/Machine/Ops.lean ====
section
/-! DEFINITION. The named operations of the block over registers, stack, memory, framebuffer, ports and events
(00_scope.md R16, R17), and taking a fault (60_exceptions.md R360), the one way a step that began ends without its effect. -/

namespace Sys2Proof.Machine

/-- What a step and a meaning answer. -/
abbrev Answer := Host.Outcome State Fault Refusal

/-! ### Raising (R16 `raise F(info)`) -/

/-- A fault raised by a primitive: its name and what is recorded as `info` (R350). -/
structure Raised where
  code : FaultCode
  info : Nat
  deriving DecidableEq, Repr

/-! ### Memory cells (10_state.md R49, 20_memory.md R81) -/

/-- What an address that memory does not list reads as: the reset contents of R59 before a program is placed, the default
font at 0x000-0x04F and 0x00 elsewhere (R81, R83, R401). Log 8. -/
def unlistedByte (a : Nat) : Byte := if h : a < 80 then defaultFont[a] else 0

/-- The byte at an address. -/
def Memory.read : Memory → Nat → Byte
  | [], a => unlistedByte a
  | (b, u) :: m, a => if b = a then u else Memory.read m a

/-- Memory with an address no longer listed. -/
def Memory.unlist (m : Memory) (a : Nat) : Memory := m.filter fun c => c.1 != a

/-- Memory with a pair put in before the first higher address. -/
def Memory.list : Memory → Nat → Byte → Memory
  | [], a, v => [(a, v)]
  | (b, u) :: m, a, v => if a < b then (a, v) :: (b, u) :: m else (b, u) :: Memory.list m a v

/-- Memory with the byte at an address replaced; a byte equal to what the address reads as unlisted is not listed, so the
canonical form is kept. -/
def Memory.write (m : Memory) (a : Nat) (v : Byte) : Memory :=
  if v = unlistedByte a then m.unlist a else (m.unlist a).list a v

/-- Memory with bytes placed one after another from an address on. -/
def Memory.writeList : Memory → Nat → List Byte → Memory
  | m, _, [] => m
  | m, a, v :: vs => Memory.writeList (m.write a v) (a + 1) vs

/-- The addresses listed are `a` or higher, strictly rising. -/
def Memory.risingFrom : Nat → Memory → Bool
  | _, [] => true
  | a, (b, _) :: m => decide (a ≤ b) && Memory.risingFrom (b + 1) m

/-- The canonical form: addresses strictly rising and inside the address space, no pair equal to what its address would
read as unlisted. -/
def Memory.wf (m : Memory) : Bool :=
  Memory.risingFrom 0 m && m.all fun c => decide (c.1 ≤ Config.lastAddr) && c.2 != unlistedByte c.1

/-! ### Registers -/

/-- `V[x] <- b` (R31). -/
def State.setV (s : State) (x : RegIx) (b : Byte) : State := { s with v := s.v.set x.val b }

/-- V0, V1, ... replaced by the bytes given, as many as there are; the other registers are kept. -/
def State.setVList (s : State) (bs : List Byte) : State :=
  { s with v := Vector.ofFn fun r : RegIx => bs.getD r.val s.v[r.val] }

/-- V0..Vx in order. -/
def State.vUpTo (s : State) (x : RegIx) : List Byte := s.v.toList.take (x.val + 1)

/-- `I <- n`: the value stored is n mod 4096 (R34). -/
def State.setI (s : State) (n : Nat) : State := { s with i := BitVec.ofNat 12 n }

/-- `PC <- n` in 16-bit storage, with no mask to 12 bits (R36). -/
def State.setPc (s : State) (n : Nat) : State := { s with pc := BitVec.ofNat 16 n }

/-- PC moved 2 on: the fetch advance and the skip (R37, 40_pipeline.md R132). Log 10. -/
def State.advance (s : State) : State := s.setPc (s.pc.toNat + 2)

/-- `DT <- b` (R44). -/
def State.setDt (s : State) (b : Byte) : State := { s with dt := b }

/-- `ST <- b` (R44). -/
def State.setSt (s : State) (b : Byte) : State := { s with st := b }

/-- The state with its memory replaced. -/
def State.setMem (s : State) (m : Memory) : State := { s with mem := m }

/-- The state with its framebuffer replaced. -/
def State.setFb (s : State) (f : Frame) : State := { s with fb := f }

/-! ### Events and draws -/

/-- `emit e`: append to the event stream (60_exceptions.md R357). -/
def State.emit (s : State) (e : Event) : State := { s with events := s.events ++ [e] }

/-- `emit frame_updated(FB)` (44_display.md R300). -/
def State.emitFrame (s : State) : State := s.emit (.frameUpdated s.fb)

/-- `Rand8()`: the next byte of the `rand` port, and the state in which it is taken (42_alu.md R213). Log 4. -/
def State.rand8 (s : State) : Byte × State := (Config.randByte s.draws, { s with draws := s.draws + 1 })

/-! ### The stack -/

/-- `Push(a)` (R42). -/
def push (a : Word) (s : State) : Except Raised State :=
  if h : s.sp.val < 16 then
    .ok { s with stack := s.stack.set s.sp.val a, sp := ⟨s.sp.val + 1, by omega⟩ }
  else .error ⟨.stackOverflow, s.sp.val⟩

/-- `Pop()` (R43): the value and the state after; the popped slot keeps its value. -/
def pop (s : State) : Except Raised (Word × State) :=
  if s.sp.val = 0 then .error ⟨.stackUnderflow, 0⟩
  else .ok (s.stack[s.sp.val - 1], { s with sp := ⟨s.sp.val - 1, by omega⟩ })

/-! ### The bus (20_memory.md R72-R76) -/

/-- `MemRead(addr, 1)` (R72). -/
def memRead (addr : Nat) (s : State) : Except Raised (Byte × State) :=
  if addr ≤ Config.lastAddr then .ok (s.mem.read addr, s)
  else match s.policy with
    | .halt => .error ⟨.memoryBounds, addr⟩
    | .permissive => .ok (0, s.emit (.boundsIgnored addr))

/-- `MemWrite(addr, 1, v)` (R73). -/
def memWrite (addr : Nat) (v : Byte) (s : State) : Except Raised State :=
  if addr ≤ Config.lastAddr then .ok (s.setMem (s.mem.write addr v))
  else match s.policy with
    | .halt => .error ⟨.memoryBounds, addr⟩
    | .permissive => .ok (s.emit (.boundsIgnored addr))

/-- `FetchRead(addr)` (R76): out of range it faults under every policy. -/
def fetchRead (addr : Nat) (s : State) : Except Raised Byte :=
  if addr ≤ Config.lastAddr then .ok (s.mem.read addr) else .error ⟨.memoryBounds, addr⟩

/-- `n` data reads at rising addresses: the sprite rows of DXYN and the bytes of FX65 (R78). Log 11. -/
def readBytes (addr : Nat) : Nat → State → Except Raised (List Byte × State)
  | 0, s => .ok ([], s)
  | n + 1, s =>
    match memRead addr s with
    | .error r => .error r
    | .ok (b, s1) =>
      match readBytes (addr + 1) n s1 with
      | .error r => .error r
      | .ok (bs, s2) => .ok (b :: bs, s2)

/-- Data writes at rising addresses: the digits of FX33 and the registers of FX55 (R78). -/
def writeBytes (addr : Nat) : List Byte → State → Except Raised State
  | [], s => .ok s
  | b :: bs, s =>
    match memWrite addr b s with
    | .error r => .error r
    | .ok s1 => writeBytes (addr + 1) bs s1

/-! ### The framebuffer (10_state.md R50, 44_display.md R290-R292) -/

/-- `FB(x, y)`. -/
def Frame.pixel (f : Frame) (x : Fin 64) (y : Fin 32) : Bool := (f[y.val]).getLsbD x.val

/-- `FB(x, y) <- b`. -/
def Frame.setPixel (f : Frame) (x : Fin 64) (y : Fin 32) (b : Bool) : Frame :=
  f.set y.val (if b then f[y.val] ||| BitVec.twoPow 64 x.val else f[y.val] &&& ~~~BitVec.twoPow 64 x.val)

/-- Every pixel 0 (R291). -/
def Frame.clear : Frame := Vector.replicate 32 0

/-- A draw under way: the framebuffer, and whether a pixel has been turned off so far. -/
structure Canvas where
  fb : Frame
  hit : Bool
  deriving DecidableEq, Repr

/-- One set sprite bit lands on pixel (x, y): XOR with 1, and a collision if the pixel was 1 (R292). -/
def Canvas.plot (c : Canvas) (x : Fin 64) (y : Fin 32) : Canvas :=
  if c.fb.pixel x y then ⟨c.fb.setPixel x y false, true⟩ else ⟨c.fb.setPixel x y true, c.hit⟩

/-- Is the bit of column `c` set in a sprite row? Bit 7 is the leftmost pixel: `row & (0x80 >> c) != 0` (R292). -/
def spriteBit (row : Byte) (c : Nat) : Bool := row &&& (0x80#8 >>> c) != 0#8

/-- The columns of one sprite row, in order, wrapping mod 64 (R290, R292). -/
def Canvas.drawRow (row : Byte) (x0 : Nat) (y : Fin 32) (c : Canvas) : Canvas :=
  (List.range 8).foldl (fun c k => if spriteBit row k then c.plot (Fin.ofNat 64 (x0 + k)) y else c) c

/-- The rows of a sprite, in order from row `y`, wrapping mod 32 (R290, R292). -/
def Canvas.drawRows (x0 : Nat) : Nat → List Byte → Canvas → Canvas
  | _, [], c => c
  | y, row :: rows, c => Canvas.drawRows x0 (y + 1) rows (c.drawRow row x0 (Fin.ofNat 32 y))

/-! ### Taking a fault (60_exceptions.md R360, R361) -/

/-- Fault entry. `s` is S0, the state before the step: everything goes back to it, PC being the address of the faulting
instruction; the status becomes Halted, the record is written, and the current tick ends at once (R360, 40_pipeline.md
R143). There is no return from it but `init` (R364). -/
def enterFault (s : State) (word : Option Word) (r : Raised) : State :=
  { s with
    status := .halted
    fault := some ⟨r.code, some s.pc, word, r.info⟩
    phase := .boundary }

/-- How an execute phase ends: completed, or the fault taken from S0 (40_pipeline.md R135). `s` is S0, `w` the word. -/
def complete (s : State) (w : Word) : Except Raised State → Answer
  | .ok t => .next t
  | .error r => .next (enterFault s (some w) r)

end Sys2Proof.Machine
end

