-- ==== Sys2Proof/Machine/Operands.lean ====
section
/-! DEFINITION. The operand forms: registers, the one data addressing mode (43_index_memory.md R249), the digits of FX33,
the keypad (10_state.md R47, R48) and the condition of a skip (40_pipeline.md R132). -/

namespace Sys2Proof.Machine

/-- `V[x]` (R30). -/
def State.reg (s : State) (x : RegIx) : Byte := s.v[x.val]

/-- The address of the byte at offset `k` from I: I + k, an unbounded natural, never wrapped (R249, 00_scope.md R18). -/
def State.effAddr (s : State) (k : Nat) : Nat := s.i.toNat + k

/-- The decimal digits of a byte, hundreds, tens, units (43_index_memory.md R253). -/
def bcdDigits (b : Byte) : List Byte :=
  [BitVec.ofNat 8 (b.toNat / 100), BitVec.ofNat 8 (b.toNat / 10 % 10), BitVec.ofNat 8 (b.toNat % 10)]

/-- The address of a font glyph: five bytes a glyph, the digit not reduced to a nibble (R252). -/
def glyphAddr (b : Byte) : Nat := b.toNat * 5

/-- `KEY(k)` (R47). -/
def State.key (s : State) (k : Nat) : Bool := s.keys.getLsbD k

/-- The keypad read of EX9E and EXA1: an index above 0xF raises KeyIndexRange before the keypad is read
(60_exceptions.md R356). -/
def readKey (k : Byte) (s : State) : Except Raised Bool :=
  if k.toNat > 0xF then .error ⟨.keyIndexRange, k.toNat⟩ else .ok (s.key k.toNat)

/-- The lowest pressed key, if any is pressed (45_keypad_timers.md R322). -/
def State.lowestKey (s : State) : Option Nat := (List.range 16).find? s.key

/-- "skip next instruction": PC moves 2 further when the condition holds (40_pipeline.md R132, 41_control_flow.md R159). -/
def State.skipIf (s : State) (c : Bool) : State := if c then s.advance else s

/-- The target of BNNN: NNN + V0, not reduced (41_control_flow.md R167). -/
def jumpTarget (nnn : Addr) (v0 : Byte) : Nat := nnn.toNat + v0.toNat

end Sys2Proof.Machine
end

