-- ==== Sys2Proof/Machine/Flags.lean ====
section
/-! DEFINITION. VF, the only flag (10_state.md R32): what each instruction that writes it as a flag computes (42_alu.md
R199, R215; 44_display.md R293). -/

namespace Sys2Proof.Machine

/-- A flag as a register value: 1 or 0. -/
def flagByte (b : Bool) : Byte := if b then 1 else 0

/-- `V[0xF] <- b ? 1 : 0`. -/
def State.setFlag (s : State) (b : Bool) : State := s.setV regF (flagByte b)

/-- 8XY4: the sum exceeds 255 (R207). -/
def carryOut (a b : Byte) : Bool := decide (a.toNat + b.toNat > 255)

/-- 8XY5 and 8XY7: the minuend is greater than the subtrahend, strictly (R199, R208, R210). -/
def strictlyGreater (a b : Byte) : Bool := decide (a.toNat > b.toNat)

/-- 8XY6: the bit shifted out on the right (R209). -/
def lowBit (a : Byte) : Bool := a &&& 1#8 == 1#8

/-- 8XYE: the bit shifted out on the left, bit 7 (R211). -/
def highBit (a : Byte) : Bool := a >>> 7 &&& 1#8 == 1#8

end Sys2Proof.Machine
end

