-- ==== Sys2Proof/Machine/Alu.lean ====
section
/-! DEFINITION. Register loads, arithmetic, logic, shifts, random (42_alu.md). The flag is written first and Vx second,
and the second statement reads the registers as the first left them (R200, 00_scope.md R17). -/

namespace Sys2Proof.Machine

/-- 6XNN, LD Vx, NN (R201). -/
def execLdImm (x : RegIx) (nn : Byte) (s : State) : Answer := .next (s.advance.setV x nn)

/-- 7XNN, ADD Vx, NN (R202): no flag. -/
def execAddImm (x : RegIx) (nn : Byte) (s : State) : Answer := .next (s.advance.setV x (s.reg x + nn))

/-- 8XY0, LD Vx, Vy (R203). -/
def execLdReg (x y : RegIx) (s : State) : Answer := .next (s.advance.setV x (s.reg y))

/-- 8XY1, OR Vx, Vy (R204): VF is not reset. -/
def execOrReg (x y : RegIx) (s : State) : Answer := .next (s.advance.setV x (s.reg x ||| s.reg y))

/-- 8XY2, AND Vx, Vy (R205): VF is not reset. -/
def execAndReg (x y : RegIx) (s : State) : Answer := .next (s.advance.setV x (s.reg x &&& s.reg y))

/-- 8XY3, XOR Vx, Vy (R206): VF is not reset. -/
def execXorReg (x y : RegIx) (s : State) : Answer := .next (s.advance.setV x (s.reg x ^^^ s.reg y))

/-- 8XY4, ADD Vx, Vy (R207): the sum is latched before any write. -/
def execAddReg (x y : RegIx) (s : State) : Answer :=
  .next ((s.advance.setFlag (carryOut (s.reg x) (s.reg y))).setV x (s.reg x + s.reg y))

/-- The second statement of 8XY5: `V[x] <- (V[x] - V[y]) mod 256`. -/
def State.subInto (s : State) (x y : RegIx) : State := s.setV x (s.reg x - s.reg y)

/-- 8XY5, SUB Vx, Vy (R208). -/
def execSub (x y : RegIx) (s : State) : Answer :=
  .next ((s.advance.setFlag (strictlyGreater (s.reg x) (s.reg y))).subInto x y)

/-- The second statement of 8XY6: `V[x] <- V[x] >> 1`. -/
def State.shiftRight (s : State) (x : RegIx) : State := s.setV x (s.reg x >>> 1)

/-- 8XY6, SHR Vx, Vy (R209): Y is ignored. -/
def execShr (x _y : RegIx) (s : State) : Answer := .next ((s.advance.setFlag (lowBit (s.reg x))).shiftRight x)

/-- The second statement of 8XY7: `V[x] <- (V[y] - V[x]) mod 256`. -/
def State.subFrom (s : State) (x y : RegIx) : State := s.setV x (s.reg y - s.reg x)

/-- 8XY7, SUBN Vx, Vy (R210). -/
def execSubn (x y : RegIx) (s : State) : Answer :=
  .next ((s.advance.setFlag (strictlyGreater (s.reg y) (s.reg x))).subFrom x y)

/-- The second statement of 8XYE: `V[x] <- (V[x] << 1) mod 256`. -/
def State.shiftLeft (s : State) (x : RegIx) : State := s.setV x (s.reg x <<< 1)

/-- 8XYE, SHL Vx, Vy (R211): Y is ignored. -/
def execShl (x _y : RegIx) (s : State) : Answer := .next ((s.advance.setFlag (highBit (s.reg x))).shiftLeft x)

/-- CXNN, RND Vx, NN (R212): exactly one draw, taken whatever NN is. -/
def execRnd (x : RegIx) (nn : Byte) (s : State) : Answer :=
  match s.advance.rand8 with
  | (r, t) => .next (t.setV x (r &&& nn))

end Sys2Proof.Machine
end

