-- ==== Sys2Proof/Machine/ControlFlow.lean ====
section
/-! DEFINITION. Control transfer and skips (41_control_flow.md). A meaning takes S0, the state whose PC is the
instruction's own address; its first move is the advance of 40_pipeline.md R132. -/

namespace Sys2Proof.Machine

/-- 00EE, RET (R160). -/
def execRet (s : State) : Answer :=
  complete s (encode .ret) (match pop s.advance with
    | .error r => .error r
    | .ok (a, t) => .ok (t.setPc a.toNat))

/-- 1NNN, JP NNN (R161). -/
def execJp (nnn : Addr) (s : State) : Answer := .next (s.advance.setPc nnn.toNat)

/-- 2NNN, CALL NNN (R162): the advanced PC is pushed. -/
def execCall (nnn : Addr) (s : State) : Answer :=
  complete s (encode (.call nnn)) (match push s.advance.pc s.advance with
    | .error r => .error r
    | .ok t => .ok (t.setPc nnn.toNat))

/-- 3XNN, SE Vx, NN (R163). -/
def execSeImm (x : RegIx) (nn : Byte) (s : State) : Answer := .next (s.advance.skipIf (s.reg x == nn))

/-- 4XNN, SNE Vx, NN (R164). -/
def execSneImm (x : RegIx) (nn : Byte) (s : State) : Answer := .next (s.advance.skipIf (s.reg x != nn))

/-- 5XY0, SE Vx, Vy (R165). -/
def execSeReg (x y : RegIx) (s : State) : Answer := .next (s.advance.skipIf (s.reg x == s.reg y))

/-- 9XY0, SNE Vx, Vy (R166). -/
def execSneReg (x y : RegIx) (s : State) : Answer := .next (s.advance.skipIf (s.reg x != s.reg y))

/-- BNNN, JP V0, NNN (R167): the offset register is V0. -/
def execJpV0 (nnn : Addr) (s : State) : Answer := .next (s.advance.setPc (jumpTarget nnn (s.reg 0)))

end Sys2Proof.Machine
end

