-- ==== Sys2Proof/Machine/Display.lean ====
section
/-! DEFINITION. Framebuffer clear and sprite draw (44_display.md). -/

namespace Sys2Proof.Machine

/-- 00E0, CLS (R291, R300). -/
def execCls (s : State) : Answer := .next (s.advance.setFb Frame.clear).emitFrame

/-- DXYN, DRW Vx, Vy, N (R292, R293, R300): the coordinates, I and N are latched before VF is reset; VF ends as the
collision flag. The rows are read first and drawn after, which no fault and no event can tell apart (Log 11). -/
def execDrw (x y : RegIx) (n : BitVec 4) (s : State) : Answer :=
  complete s (encode (.drw x y n)) (match readBytes (s.effAddr 0) n.toNat s.advance with
    | .error r => .error r
    | .ok (rows, t) =>
      match Canvas.drawRows (s.reg x).toNat (s.reg y).toNat rows ⟨t.fb, false⟩ with
      | ⟨fb, hit⟩ => .ok ((t.setFb fb).setFlag hit).emitFrame)

end Sys2Proof.Machine
end

