-- ==== Sys2Proof/Machine/IndexMemory.lean ====
section
/-! DEFINITION. The index register, BCD, register block store and load (43_index_memory.md). -/

namespace Sys2Proof.Machine

/-- ANNN, LD I, NNN (R250). -/
def execLdI (nnn : Addr) (s : State) : Answer := .next (s.advance.setI nnn.toNat)

/-- FX1E, ADD I, Vx (R251): no flag. -/
def execAddI (x : RegIx) (s : State) : Answer := .next (s.advance.setI (s.i.toNat + (s.reg x).toNat))

/-- FX29, LD F, Vx (R252). -/
def execLdF (x : RegIx) (s : State) : Answer := .next (s.advance.setI (glyphAddr (s.reg x)))

/-- FX33, LD B, Vx (R253): I is not changed. -/
def execLdB (x : RegIx) (s : State) : Answer :=
  complete s (encode (.ldB x)) (writeBytes (s.effAddr 0) (bcdDigits (s.reg x)) s.advance)

/-- FX55, LD [I], Vx (R254): I is advanced by X + 1 after the last byte. -/
def execStoreRegs (x : RegIx) (s : State) : Answer :=
  complete s (encode (.storeRegs x)) (match writeBytes (s.effAddr 0) (s.vUpTo x) s.advance with
    | .error r => .error r
    | .ok t => .ok (t.setI (s.effAddr (x.val + 1))))

/-- FX65, LD Vx, [I] (R255): the addresses use I as it was on entry; I is advanced by X + 1 after the last byte. -/
def execLoadRegs (x : RegIx) (s : State) : Answer :=
  complete s (encode (.loadRegs x)) (match readBytes (s.effAddr 0) (x.val + 1) s.advance with
    | .error r => .error r
    | .ok (bs, t) => .ok ((t.setVList bs).setI (s.effAddr (x.val + 1))))

end Sys2Proof.Machine
end

