-- ==== Sys2Proof/Machine/KeypadTimers.lean ====
section
/-! DEFINITION. Keypad and timer instructions (45_keypad_timers.md). -/

namespace Sys2Proof.Machine

/-- EX9E, SKP Vx (R320). -/
def execSkp (x : RegIx) (s : State) : Answer :=
  complete s (encode (.skp x)) (match readKey (s.reg x) s.advance with
    | .error r => .error r
    | .ok pressed => .ok (s.advance.skipIf pressed))

/-- EXA1, SKNP Vx (R321). -/
def execSknp (x : RegIx) (s : State) : Answer :=
  complete s (encode (.sknp x)) (match readKey (s.reg x) s.advance with
    | .error r => .error r
    | .ok pressed => .ok (s.advance.skipIf !pressed))

/-- FX0A, LD Vx, K (R322): a poll that never waits. -/
def execLdVxK (x : RegIx) (s : State) : Answer :=
  match s.lowestKey with
  | some k => .next (s.advance.setV x (BitVec.ofNat 8 k))
  | none => .next s.advance

/-- FX07, LD Vx, DT (R323). -/
def execLdVxDt (x : RegIx) (s : State) : Answer := .next (s.advance.setV x s.dt)

/-- FX15, LD DT, Vx (R324). -/
def execLdDtVx (x : RegIx) (s : State) : Answer := .next (s.advance.setDt (s.reg x))

/-- FX18, LD ST, Vx (R325). -/
def execLdStVx (x : RegIx) (s : State) : Answer := .next (s.advance.setSt (s.reg x))

end Sys2Proof.Machine
end

