-- ==== Sys2Proof/Machine/Scheduler.lean ====
section
/-! DEFINITION. The scheduler and the host's calls: the timer decrement (60_exceptions.md R385), the two ends of a tick
(40_pipeline.md R140), `init` (70_reset_and_hazards.md R400-R405), and the state ports (00_scope.md R11). -/

namespace Sys2Proof.Machine

/-! ### The tick (R140) -/

/-- A timer one tick on: never below 0 (R385, R387). -/
def countDown (b : Byte) : Byte := if b.toNat > 0 then b - 1 else b

/-- `TickTimers()` (R385). -/
def tickTimers (s : State) : State := { s with dt := countDown s.dt, st := countDown s.st }

/-- `tick(k, keys)` begins: without effect unless the block is Running (R145); else the keypad snapshot is taken (R141)
and k steps are due. -/
def startTick (k : Nat) (keys : BitVec 16) (s : State) : State :=
  if s.status = .running then { s with keys := keys, phase := .steps k } else s

/-- A tick that has completed its steps ends: the timers are decremented once (R140, R142). -/
def endTick (s : State) : State := { tickTimers s with phase := .boundary }

/-! ### Initialisation (R400-R404) -/

/-- `MemReset()`: all bytes zero, then the font at 0x000-0x04F (R401). Zeroing the font's 80 bytes zeroes all of memory,
because every other unlisted address reads 0 (R81). -/
def memReset (font : Font) : Memory :=
  Memory.writeList (Memory.writeList [] 0 (List.replicate Config.fontSize 0)) 0 font.toList

/-- What `init` hands back to the host (R11, R400). -/
inductive InitResult where
  | ok
  | romEmpty
  | romTooLarge
  deriving DecidableEq, Repr

/-- The two length checks of `Load(rom)` (R402, R351, R352). -/
def loadCheck (rom : List Byte) : InitResult :=
  if rom.length = 0 then .romEmpty
  else if rom.length > Config.romMaxLen then .romTooLarge
  else .ok

/-- The zeroed state of `Init` with memory reset (R400, R401). What is not state of the block is kept: the parameters, the
host's calls, and the streams of draws and events (Log 14). -/
def zeroed (s : State) : State :=
  { State.reset with
    mem := memReset s.font
    policy := s.policy
    font := s.font
    phase := .boundary
    calls := s.calls
    draws := s.draws
    events := s.events }

/-- A load error: not started, the error recorded with the ROM's length (R404). -/
def failLoad (code : FaultCode) (rom : List Byte) (s : State) : State :=
  { s with status := .unloaded, fault := some ⟨code, none, none, rom.length⟩ }

/-- `init(rom)` (R400): the whole state replaced, and the program written at 0x200 after both checks pass (R402). -/
def initRom (rom : List Byte) (s : State) : State :=
  match loadCheck rom with
  | .romEmpty => failLoad .romEmpty rom (zeroed s)
  | .romTooLarge => failLoad .romTooLarge rom (zeroed s)
  | .ok => (zeroed s).setMem ((zeroed s).mem.writeList Config.programBase rom)

/-- One host call served at a tick boundary (R146, 60_exceptions.md R395). -/
def serve : HostCall → State → State
  | .init rom, s => initRom rom s
  | .tick k keys, s => startTick k keys s

/-- A tick with the suggested default of k (R144). -/
def HostCall.defaultTick (keys : BitVec 16) : HostCall := .tick Config.defaultStepsPerTick keys

/-! ### State ports (00_scope.md R11) -/

/-- The `delay` port. -/
def State.delayPort (s : State) : Byte := s.dt

/-- The `sound` port. -/
def State.soundPort (s : State) : Byte := s.st

/-- The `sound_active` port: 1 while ST is not 0 (R388). -/
def State.soundActive (s : State) : Bool := s.st != 0

/-- The `fb` port, pixel by pixel. -/
def State.fbPort (s : State) (x : Fin 64) (y : Fin 32) : Bool := s.fb.pixel x y

/-- The `status` port. -/
def State.statusPort (s : State) : Status := s.status

/-- The `fault` port. -/
def State.faultPort (s : State) : Option FaultRecord := s.fault

end Sys2Proof.Machine
end

