-- ==== Sys2Proof/Machine/Pipeline.lean ====
section
/-! DEFINITION. The instruction step (40_pipeline.md R130-R137): fetch, advance, decode, execute. -/

namespace Sys2Proof.Machine

/-- The fetch: two bytes at PC and PC + 1, the high byte first; either may fault (R131, 20_memory.md R75, R76). -/
def fetch (s : State) : Except Raised Word :=
  match fetchRead s.pc.toNat s with
  | .error r => .error r
  | .ok hi =>
    match fetchRead (s.pc.toNat + 1) s with
    | .error r => .error r
    | .ok lo => .ok (hi ++ lo)

/-- An unknown word: a no-op that has advanced PC, with its event (30_encoding.md R108, 60_exceptions.md R358). -/
def execUnknown (w : Word) (s : State) : State := s.advance.emit (.unknownOpcode s.pc w)

/-- `Step()` (R130), defined only while the block is Running (R137). A fetch fault is taken with no word (R353). -/
def stepInstr (s : State) : Answer :=
  if s.status = .running then
    match fetch s with
    | .error r => .next (enterFault s none r)
    | .ok w =>
      match decode w with
      | .unknown w => .next (execUnknown w s)
      | .known i => exec i s
  else .fault .notRunning

/-- One move of the block, by where the scheduler stands (R140): at a boundary the host's next call is served; inside a
tick one instruction is stepped, or, its steps done, the tick ends. -/
def move (s : State) : Answer :=
  match s.phase with
  | .unbounded => stepInstr s
  | .steps (n + 1) => stepInstr { s with phase := .steps n }
  | .steps 0 => .next (endTick s)
  | .boundary =>
    match s.calls with
    | [] => .fault .awaitingHost
    | c :: cs => .next (serve c { s with calls := cs })

/-- The address withFetchWord stores at: PC, or 0x200 where nothing can be fetched at PC. Log 16. -/
def placeAddr (s : State) : Nat := if s.pc.toNat < Config.lastAddr then s.pc.toNat else Config.programBase

/-- The phase in which the very next step is an instruction step. Log 16. -/
def placePhase : Phase → Phase
  | .boundary => .unbounded
  | .steps 0 => .steps 1
  | p => p

/-- The state with an instruction word stored where the next step fetches, and all that this takes. Log 16. -/
def placeWord (s : State) (w : Word) : State :=
  { s with
    pc := BitVec.ofNat 16 (placeAddr s)
    mem := s.mem.writeList (placeAddr s) [hiByte w, loByte w]
    status := .running
    phase := placePhase s.phase }

end Sys2Proof.Machine
end

