-- ==== Sys2Proof/Machine/Step.lean ====
section
/-! DEFINITION. The machine's step, and the placing of one instruction where it fetches. -/

namespace Sys2Proof.Machine

/-- One step of the machine: one instruction step, or one move of the scheduler between them (40_pipeline.md R130, R140). -/
def step (s : State) : Host.Outcome State Fault Refusal := move s

/-- `s` with the instruction of the opcode table whose bits are `w` stored where `step` fetches next. -/
def State.withFetchWord (s : State) (nbits w : Nat) : State := placeWord s (tableWord nbits w)

end Sys2Proof.Machine
end

