-- ==== Sys2Proof/Safety.lean ====
section
/-! DEFINITION. The terms claims use: what a step keeps, how a fault is taken, what a sprite covers, and the invariant of
the block. Written from the rules, apart from the definitions of the machine. -/

namespace Sys2Proof.Machine

/-! ### What is kept -/

/-- A piece of the state (10_state.md), the model's own fields included. -/
inductive Part where
  | v | i | pc | sp | stack | dt | st | mem | fb | keys | status | fault | policy | font | phase | calls | draws | events
  deriving DecidableEq, Repr

/-- The piece is the same in both states; memory, byte by byte. -/
def Part.same (s t : State) : Part → Prop
  | .v => t.v = s.v
  | .i => t.i = s.i
  | .pc => t.pc = s.pc
  | .sp => t.sp = s.sp
  | .stack => t.stack = s.stack
  | .dt => t.dt = s.dt
  | .st => t.st = s.st
  | .mem => ∀ a, t.mem.read a = s.mem.read a
  | .fb => t.fb = s.fb
  | .keys => t.keys = s.keys
  | .status => t.status = s.status
  | .fault => t.fault = s.fault
  | .policy => t.policy = s.policy
  | .font => t.font = s.font
  | .phase => t.phase = s.phase
  | .calls => t.calls = s.calls
  | .draws => t.draws = s.draws
  | .events => t.events = s.events

/-- From `s` to `t` everything but the pieces named is unchanged. -/
def KeepsAllBut (ps : List Part) (s t : State) : Prop := ∀ p : Part, p ∉ ps → p.same s t

/-- Every general register but those named is unchanged. -/
def KeepsRegsBut (xs : List RegIx) (s t : State) : Prop := ∀ r : RegIx, r ∉ xs → t.reg r = s.reg r

/-- PC is the address of the instruction plus 2 (40_pipeline.md R132). -/
def Advanced (s t : State) : Prop := t.pc = s.pc + 2#16

/-- PC is the address of the instruction plus 2, plus another 2 where the skip is taken (R132). -/
def Skips (c : Bool) (s t : State) : Prop := t.pc = if c then s.pc + 4#16 else s.pc + 2#16

/-! ### Faults (60_exceptions.md R360, R361) -/

/-- The block has halted on a fault of the instruction at `s.pc`: the record is written, the tick has ended
(40_pipeline.md R143; in the model's own field phase, Log 19), and nothing else has changed. -/
def HaltsWith (s t : State) (code : FaultCode) (word : Option Word) (info : Nat) : Prop :=
  t.status = .halted ∧ t.fault = some ⟨code, some s.pc, word, info⟩ ∧ t.phase = .boundary ∧
    KeepsAllBut [.status, .fault, .phase] s t

/-- Which instruction can raise which fault, and under which policy (R350). -/
def mayRaise (s : State) : Instr → FaultCode → Bool
  | .call _, .stackOverflow => true
  | .ret, .stackUnderflow => true
  | .skp _, .keyIndexRange => true
  | .sknp _, .keyIndexRange => true
  | .drw _ _ _, .memoryBounds => s.policy == .halt
  | .ldB _, .memoryBounds => s.policy == .halt
  | .storeRegs _, .memoryBounds => s.policy == .halt
  | .loadRegs _, .memoryBounds => s.policy == .halt
  | _, _ => false

/-! ### Data accesses (20_memory.md R72, R73) -/

/-- The `n` bytes from I on lie inside the address space, or the policy lets the access go on. -/
def accessGoesOn (s : State) (n : Nat) : Prop := s.i.toNat + n ≤ 0x1000 ∨ s.policy = .permissive

/-- Under `Halt` some of the `n` bytes from I on lie above 0xFFF. -/
def accessFaults (s : State) (n : Nat) : Prop := 0x1000 < s.i.toNat + n ∧ s.policy = .halt

/-- What a data read at offset `k` from I gives where it does not fault: the byte, or 0 above 0xFFF (R72). -/
def dataByte (s : State) (k : Nat) : Byte := if s.i.toNat + k ≤ 0xFFF then s.mem.read (s.i.toNat + k) else 0

/-- The events of an access to the `n` bytes from I on: one for each address above 0xFFF, in rising order (R359). -/
def ignoredEvents (s : State) (n : Nat) : List Event :=
  ((List.range n).filter fun k => decide (0xFFF < s.i.toNat + k)).map fun k => .boundsIgnored (s.i.toNat + k)

/-! ### Sprites (44_display.md R292) -/

/-- A set bit of the sprite of DXYN lands on pixel (px, py): some row r < N and column c < 8 whose bit 7 - c is 1, with
px = (Vx + c) mod 64 and py = (Vy + r) mod 32. -/
def spriteCovers (s : State) (x y : RegIx) (n : Nat) (px : Fin 64) (py : Fin 32) : Bool :=
  (List.range n).any fun r => (List.range 8).any fun c =>
    (dataByte s r).getLsbD (7 - c) &&
      (((s.reg x).toNat + c) % 64 == px.val && ((s.reg y).toNat + r) % 32 == py.val)

/-- The sprite turns some pixel off (R293). -/
def spriteHits (s : State) (x y : RegIx) (n : Nat) : Prop :=
  ∃ px py, spriteCovers s x y n px py = true ∧ s.fb.pixel px py = true

/-! ### Who writes what -/

/-- The pieces of state, PC apart, that an instruction may write when it completes (10_state.md R33, R35, R44, R51, R55;
20_memory.md R70; 42_alu.md R213; 60_exceptions.md R357). -/
def writes : Instr → List Part
  | .cls => [.fb, .events]
  | .ret => [.sp]
  | .call _ => [.sp, .stack]
  | .jp _ | .jpV0 _ | .seImm _ _ | .sneImm _ _ | .seReg _ _ | .sneReg _ _ | .skp _ | .sknp _ => []
  | .ldImm _ _ | .addImm _ _ | .ldReg _ _ | .orReg _ _ | .andReg _ _ | .xorReg _ _ => [.v]
  | .addReg _ _ | .sub _ _ | .shr _ _ | .subn _ _ | .shl _ _ | .ldVxDt _ | .ldVxK _ => [.v]
  | .rnd _ _ => [.v, .draws]
  | .drw _ _ _ => [.v, .fb, .events]
  | .ldI _ | .addI _ | .ldF _ => [.i]
  | .ldDtVx _ => [.dt]
  | .ldStVx _ => [.st]
  | .ldB _ => [.mem, .events]
  | .storeRegs _ => [.mem, .i, .events]
  | .loadRegs _ => [.v, .i, .events]

/-- The general registers an instruction may write, VF as a flag included (10_state.md R32, R33; 42_alu.md R215). -/
def writesRegs : Instr → List RegIx
  | .ldImm x _ | .addImm x _ | .ldReg x _ | .orReg x _ | .andReg x _ | .xorReg x _ => [x]
  | .rnd x _ | .ldVxDt x | .ldVxK x => [x]
  | .addReg x _ | .sub x _ | .shr x _ | .subn x _ | .shl x _ => [regF, x]
  | .drw _ _ _ => [regF]
  | .loadRegs x => (List.finRange 16).filter fun r => decide (r ≤ x)
  | .cls | .ret | .jp _ | .call _ | .seImm _ _ | .sneImm _ _ | .seReg _ _ | .sneReg _ _ | .ldI _ | .jpV0 _ => []
  | .skp _ | .sknp _ | .ldDtVx _ | .ldStVx _ | .addI _ | .ldF _ | .ldB _ | .storeRegs _ => []

/-! ### Running -/

/-- Instructions executed one after another, stopping at the first that does not answer a next state. -/
def execAll : List Instr → State → Answer
  | [], s => .next s
  | i :: is, s =>
    match exec i s with
    | .next t => execAll is t
    | .fault r => .fault r
    | .refused r => .refused r

/-! ### The invariant -/

/-- The fault record agrees with the status (10_state.md R56, R57): none while Running; of a halting fault, at the PC, when
Halted; absent or a load error when Unloaded. -/
def FaultAgrees (s : State) : Prop :=
  match s.status with
  | .running => s.fault = none
  | .halted => ∃ r, s.fault = some r ∧ r.pc = some s.pc ∧
      (r.code = .memoryBounds ∧ 0xFFF < r.info ∨ r.code = .stackOverflow ∧ r.info = 16 ∨
        r.code = .stackUnderflow ∧ r.info = 0 ∨ r.code = .keyIndexRange ∧ 0xF < r.info)
  | .unloaded => ∀ r, s.fault = some r → r.pc = none ∧ r.word = none ∧
      (r.code = .romEmpty ∧ r.info = 0 ∨ r.code = .romTooLarge ∧ Config.romMaxLen < r.info)

/-- What every state of a run satisfies: memory in canonical form; PC at most 0x10FE (R36); every stack slot at most 0x1000
(R41: the highest return address); a tick under way only while Running (40_pipeline.md R143, R145); the fault record in
agreement with the status. -/
structure State.Inv (s : State) : Prop where
  memCanonical : s.mem.wf = true
  pcBound : s.pc.toNat ≤ 0x10FE
  slotBound : ∀ j : Fin 16, (s.stack[j.val]).toNat ≤ 0x1000
  tickRunning : s.phase ≠ .boundary → s.status = .running
  faultAgrees : FaultAgrees s

end Sys2Proof.Machine
end

