-- ==== Sys2Proof/Certificates/Slice0/Obligations.lean ====
section
/-! DEFINITION. The statements for the provers, from the numbered rules of spec/. Results are stated on natural numbers or
pixel by pixel, apart from the definitions of the machine; `exec i s` starts from S0, whose PC is the instruction's own
address (40_pipeline.md R130). The frames also say that the model's own fields (phase, calls, draws, events: Log 2, 3, 4, 5)
are kept where nothing else is said; that is the model's, not the spec's. -/

open Sys2Proof Sys2Proof.Machine

/-! ### Encoding (30_encoding.md) -/

/-- R101, R103, R104: every instruction's word, its two bytes in memory (the rest handed back), and its word in the opcode
table's numbering decode to that instruction, with every operand at every value. -/
def Obligations.DecodeOfEncode : Prop :=
  ∀ (i : Instr) (rest : List Byte),
    decode (encode i) = .known i ∧ decodeBytes (encodeBytes i ++ rest) = .ok (i, rest) ∧
      decodeTableWord 16 (encode i).toNat = some i

/-- R104, R110: a word that decodes to an instruction is that instruction's encoding, so no two words share one. -/
def Obligations.EncodeOfDecode : Prop :=
  ∀ (w : Word) (i : Instr), decode w = .known i → encode i = w

/-- R103, R104: the decoder knows exactly the words that select a row of the opcode map, the map is written apart from it,
and no word selects two rows. -/
def Obligations.DecodeAgreesWithOpcodeMap : Prop :=
  ∀ w : Word, ((∃ i, decode w = .known i) ↔ wellFormedWord w = true) ∧ (opcodeMap.filter (·.selects w)).length ≤ 1

/-- R105-R109: the unknown words are exactly those of R108's table, and an unknown opcode keeps its word. -/
def Obligations.UnknownWordsExactly : Prop :=
  ∀ w : Word, (∀ u, decode w = .unknown u → u = w) ∧
    (decode w = .unknown w ↔
      (w.toNat / 4096 = 0x0 ∧ w.toNat ≠ 0x00E0 ∧ w.toNat ≠ 0x00EE) ∨
      (w.toNat / 4096 = 0x5 ∧ w.toNat % 16 ≠ 0) ∨
      (w.toNat / 4096 = 0x8 ∧ w.toNat % 16 ∈ [0x8, 0x9, 0xA, 0xB, 0xC, 0xD, 0xF]) ∨
      (w.toNat / 4096 = 0x9 ∧ w.toNat % 16 ≠ 0) ∨
      (w.toNat / 4096 = 0xE ∧ w.toNat % 256 ∉ [0x9E, 0xA1]) ∨
      (w.toNat / 4096 = 0xF ∧ w.toNat % 256 ∉ [0x07, 0x0A, 0x15, 0x18, 0x1E, 0x29, 0x33, 0x55, 0x65]))

/-- R103, R104: words written out from the patterns. -/
def Obligations.SampleWordsDecode : Prop :=
  decode 0x6A02 = .known (.ldImm 0xA 0x02) ∧ decode 0x00EE = .known .ret ∧ decode 0x8F27 = .known (.subn 0xF 0x2) ∧
    decode 0xD125 = .known (.drw 0x1 0x2 0x5) ∧ decode 0xB300 = .known (.jpV0 0x300) ∧
    decode 0xF365 = .known (.loadRegs 0x3) ∧ decode 0xE5A1 = .known (.sknp 0x5) ∧ decode 0x01E0 = .unknown 0x01E0

/-! ### The step (40_pipeline.md) -/

/-- R130, R131, R134: inside a tick a Running block whose two bytes at PC decode to `i` executes `i`; in a counted tick one
step fewer is then due. -/
def Obligations.StepRunsDecodedInstruction : Prop :=
  ∀ (s : State) (i : Instr), s.status = .running → s.pc.toNat ≤ 0xFFE →
    decode (s.mem.read s.pc.toNat ++ s.mem.read (s.pc.toNat + 1)) = .known i →
    (s.phase = .unbounded → step s = exec i s) ∧
      ∀ n, s.phase = .steps (n + 1) → step s = exec i { s with phase := .steps n }

/-- R108, R358: an unknown word advances PC, emits UnknownOpcode with its address and value, and changes nothing else. -/
def Obligations.UnknownWordIsNoOp : Prop :=
  ∀ (s : State) (w : Word), s.status = .running → s.phase = .unbounded → s.pc.toNat ≤ 0xFFE →
    w = s.mem.read s.pc.toNat ++ s.mem.read (s.pc.toNat + 1) → decode w = .unknown w →
    ∃ t, step s = .next t ∧ Advanced s t ∧ t.events = s.events ++ [.unknownOpcode s.pc w] ∧
      KeepsAllBut [.pc, .events] s t

/-- R76, R131: a fetch that needs a byte above 0xFFF halts under every policy, with no word; it reports PC, or 0x1000 for
PC = 0xFFF. -/
def Obligations.FetchPastTopHalts : Prop :=
  ∀ s : State, s.status = .running → s.phase = .unbounded → 0xFFE < s.pc.toNat →
    ∃ t, step s = .next t ∧
      HaltsWith s t .memoryBounds none (if s.pc.toNat = 0xFFF then 0x1000 else s.pc.toNat)

/-- R136: inside a tick a Running block always answers a next state, Running or Halted: no step blocks, and no instruction
is left without a meaning. -/
def Obligations.RunningStepAnswers : Prop :=
  ∀ s : State, s.status = .running → s.phase ≠ .boundary →
    ∃ t, step s = .next t ∧ (t.status = .running ∨ t.status = .halted)

/-- The model's own (Log 3): at a tick boundary with no host call step stops with `awaitingHost`, and with an instruction
step due on a block that is not Running it stops with `notRunning`; 40_pipeline.md section 1 (R137) and section 2 leave
the two undefined. -/
def Obligations.StepStopsByName : Prop :=
  ∀ s : State,
    (s.phase = .boundary → s.calls = [] → step s = .fault .awaitingHost) ∧
    (s.phase = .unbounded → s.status ≠ .running → step s = .fault .notRunning) ∧
    ∀ n, s.phase = .steps (n + 1) → s.status ≠ .running → step s = .fault .notRunning

/-- R135, R350, R360-R362: a step that leaves a Running block not Running has halted it on one fault, precisely: PC is the
faulting instruction's own address, nothing but status, fault record and phase has changed (no event either), and the
record names the fetched word, or none where the fetch itself faulted; the instruction is one that may raise that fault. -/
def Obligations.FaultsArePrecise : Prop :=
  ∀ s t : State, s.status = .running → s.phase = .unbounded → step s = .next t → t.status ≠ .running →
    (0xFFE < s.pc.toNat ∧ HaltsWith s t .memoryBounds none (if s.pc.toNat = 0xFFF then 0x1000 else s.pc.toNat)) ∨
    (s.pc.toNat ≤ 0xFFE ∧ ∃ (w : Word) (i : Instr) (code : FaultCode) (info : Nat), w = s.mem.read s.pc.toNat ++ s.mem.read (s.pc.toNat + 1) ∧
      decode w = .known i ∧ mayRaise s i code = true ∧ HaltsWith s t code (some w) info)

/-! ### Control flow (41_control_flow.md) -/

/-- R161: JP sets PC to NNN and changes nothing else. -/
def Obligations.JumpSetsPc : Prop :=
  ∀ (nnn : Addr) (s : State),
    decode (packNNN 0x1 nnn) = .known (.jp nnn) ∧
    ∃ t, exec (.jp nnn) s = .next t ∧ t.pc.toNat = nnn.toNat ∧ KeepsAllBut [.pc] s t

/-- R42, R162: with a slot free CALL pushes the address after it and jumps; with SP = 16 it halts with StackOverflow. -/
def Obligations.CallPushesAndJumps : Prop :=
  ∀ (nnn : Addr) (s : State),
    decode (packNNN 0x2 nnn) = .known (.call nnn) ∧
    (∀ h : s.sp.val < 16, ∃ t, exec (.call nnn) s = .next t ∧ t.pc.toNat = nnn.toNat ∧ t.sp.val = s.sp.val + 1 ∧
      t.stack[s.sp.val] = s.pc + 2#16 ∧ (∀ j : Fin 16, j.val ≠ s.sp.val → t.stack[j.val] = s.stack[j.val]) ∧
      KeepsAllBut [.pc, .sp, .stack] s t) ∧
    (s.sp.val = 16 → ∃ t, exec (.call nnn) s = .next t ∧ HaltsWith s t .stackOverflow (some (encode (.call nnn))) 16)

/-- R43, R160: with a slot occupied RET pops it into PC, as it stands, and the slot keeps its value; with SP = 0 it halts
with StackUnderflow. -/
def Obligations.ReturnPops : Prop :=
  ∀ s : State,
    decode 0x00EE = .known .ret ∧
    (s.sp.val ≠ 0 → ∃ t, exec .ret s = .next t ∧ t.pc = s.stack[s.sp.val - 1] ∧ t.sp.val + 1 = s.sp.val ∧
      KeepsAllBut [.pc, .sp] s t) ∧
    (s.sp.val = 0 → ∃ t, exec .ret s = .next t ∧ HaltsWith s t .stackUnderflow (some (encode .ret)) 0)

/-- R163, R164: PC moves 2 further than the fetch advance iff Vx equals NN, or iff it does not; nothing else changes. -/
def Obligations.SkipsOnImmediate : Prop :=
  ∀ (x : RegIx) (nn : Byte) (s : State),
    decode (packXNN 0x3 x nn) = .known (.seImm x nn) ∧ decode (packXNN 0x4 x nn) = .known (.sneImm x nn) ∧
    (∃ t, exec (.seImm x nn) s = .next t ∧ Skips (decide (s.reg x = nn)) s t ∧ KeepsAllBut [.pc] s t) ∧
    (∃ t, exec (.sneImm x nn) s = .next t ∧ Skips (decide (s.reg x ≠ nn)) s t ∧ KeepsAllBut [.pc] s t)

/-- R165, R166: PC moves 2 further than the fetch advance iff Vx equals Vy, or iff it does not; nothing else changes. -/
def Obligations.SkipsOnRegister : Prop :=
  ∀ (x y : RegIx) (s : State),
    decode (packXYN 0x5 x y 0x0) = .known (.seReg x y) ∧ decode (packXYN 0x9 x y 0x0) = .known (.sneReg x y) ∧
    (∃ t, exec (.seReg x y) s = .next t ∧ Skips (decide (s.reg x = s.reg y)) s t ∧ KeepsAllBut [.pc] s t) ∧
    (∃ t, exec (.sneReg x y) s = .next t ∧ Skips (decide (s.reg x ≠ s.reg y)) s t ∧ KeepsAllBut [.pc] s t)

/-- R167: the offset register is V0, and the sum is not reduced. -/
def Obligations.JumpWithOffset : Prop :=
  ∀ (nnn : Addr) (s : State),
    decode (packNNN 0xB nnn) = .known (.jpV0 nnn) ∧
    ∃ t, exec (.jpV0 nnn) s = .next t ∧ t.pc.toNat = nnn.toNat + (s.reg 0).toNat ∧
      KeepsAllBut [.pc] s t

/-- R160, R162: after a CALL, a RET from any state whose stack is the one the CALL left resumes behind the CALL. -/
def Obligations.CallThenReturnResumes : Prop :=
  ∀ (nnn : Addr) (s : State), s.sp.val < 16 → ∃ t, exec (.call nnn) s = .next t ∧
    ∀ t' : State, t'.sp = t.sp → t'.stack = t.stack →
      ∃ u, exec .ret t' = .next u ∧ u.pc = s.pc + 2#16 ∧ u.sp = s.sp ∧ KeepsAllBut [.pc, .sp] t' u

/-- R40, R162: from an empty stack up to 16 nested calls succeed, SP counting them; a 17th halts with StackOverflow. -/
def Obligations.SixteenCallsNest : Prop :=
  ∀ (s : State) (targets : List Addr), s.status = .running → s.sp.val = 0 →
    (targets.length ≤ 16 → ∃ t, execAll (targets.map .call) s = .next t ∧ t.status = .running ∧
      t.sp.val = targets.length) ∧
    (targets.length = 17 → ∃ t r, execAll (targets.map .call) s = .next t ∧ t.status = .halted ∧ t.sp.val = 16 ∧
      t.fault = some r ∧ r.code = .stackOverflow ∧ r.info = 16)

/-! ### Registers, arithmetic, logic (42_alu.md) -/

/-- R201, R203: Vx takes NN, or the value of Vy, and no other register changes. -/
def Obligations.LoadsWriteTheirRegister : Prop :=
  ∀ (x y : RegIx) (nn : Byte) (s : State),
    decode (packXNN 0x6 x nn) = .known (.ldImm x nn) ∧ decode (packXYN 0x8 x y 0x0) = .known (.ldReg x y) ∧
    (∃ t, exec (.ldImm x nn) s = .next t ∧ t.reg x = nn ∧ KeepsRegsBut [x] s t ∧ Advanced s t ∧
      KeepsAllBut [.v, .pc] s t) ∧
    (∃ t, exec (.ldReg x y) s = .next t ∧ t.reg x = s.reg y ∧ KeepsRegsBut [x] s t ∧ Advanced s t ∧
      KeepsAllBut [.v, .pc] s t)

/-- R202: no carry is written; only Vx changes. -/
def Obligations.AddImmediateWraps : Prop :=
  ∀ (x : RegIx) (nn : Byte) (s : State),
    decode (packXNN 0x7 x nn) = .known (.addImm x nn) ∧
    ∃ t, exec (.addImm x nn) s = .next t ∧
      (t.reg x).toNat = ((s.reg x).toNat + nn.toNat) % 256 ∧ KeepsRegsBut [x] s t ∧ Advanced s t ∧
      KeepsAllBut [.v, .pc] s t

/-- R204, R205, R206: bit by bit; VF is not reset. -/
def Obligations.LogicIsBitwise : Prop :=
  ∀ (x y : RegIx) (s : State),
    decode (packXYN 0x8 x y 0x1) = .known (.orReg x y) ∧ decode (packXYN 0x8 x y 0x2) = .known (.andReg x y) ∧
    decode (packXYN 0x8 x y 0x3) = .known (.xorReg x y) ∧
    (∃ t, exec (.orReg x y) s = .next t ∧
      (∀ k, (t.reg x).getLsbD k = ((s.reg x).getLsbD k || (s.reg y).getLsbD k)) ∧
      KeepsRegsBut [x] s t ∧ Advanced s t ∧ KeepsAllBut [.v, .pc] s t) ∧
    (∃ t, exec (.andReg x y) s = .next t ∧
      (∀ k, (t.reg x).getLsbD k = ((s.reg x).getLsbD k && (s.reg y).getLsbD k)) ∧
      KeepsRegsBut [x] s t ∧ Advanced s t ∧ KeepsAllBut [.v, .pc] s t) ∧
    (∃ t, exec (.xorReg x y) s = .next t ∧
      (∀ k, (t.reg x).getLsbD k = ((s.reg x).getLsbD k != (s.reg y).getLsbD k)) ∧
      KeepsRegsBut [x] s t ∧ Advanced s t ∧ KeepsAllBut [.v, .pc] s t)

/-- R207: the sum of the values before any write; VF the carry, but the sum where X = F. -/
def Obligations.AddSetsCarry : Prop :=
  ∀ (x y : RegIx) (s : State),
    decode (packXYN 0x8 x y 0x4) = .known (.addReg x y) ∧
    ∃ t, exec (.addReg x y) s = .next t ∧
      (t.reg x).toNat = ((s.reg x).toNat + (s.reg y).toNat) % 256 ∧
      (x ≠ regF → (t.reg regF).toNat = if (s.reg x).toNat + (s.reg y).toNat > 255 then 1 else 0) ∧
      KeepsRegsBut [regF, x] s t ∧ Advanced s t ∧ KeepsAllBut [.v, .pc] s t

/-- R200, R208: with f = 1 iff Vx > Vy strictly, Vx ends as the difference of the operands read after VF <- f, and VF as f
unless X = F. -/
def Obligations.SubComparesThenSubtracts : Prop :=
  ∀ (x y : RegIx) (s : State),
    decode (packXYN 0x8 x y 0x5) = .known (.sub x y) ∧
    ∃ (f a b : Nat) (t : State), f = (if (s.reg x).toNat > (s.reg y).toNat then 1 else 0) ∧
      a = (if x = regF then f else (s.reg x).toNat) ∧ b = (if y = regF then f else (s.reg y).toNat) ∧
      exec (.sub x y) s = .next t ∧ (t.reg x).toNat = (a + 256 - b) % 256 ∧
      (x ≠ regF → (t.reg regF).toNat = f) ∧ KeepsRegsBut [regF, x] s t ∧ Advanced s t ∧ KeepsAllBut [.v, .pc] s t

/-- R200, R210: the reverse subtraction, flag f = 1 iff Vy > Vx strictly. -/
def Obligations.SubnComparesThenSubtracts : Prop :=
  ∀ (x y : RegIx) (s : State),
    decode (packXYN 0x8 x y 0x7) = .known (.subn x y) ∧
    ∃ (f a b : Nat) (t : State), f = (if (s.reg y).toNat > (s.reg x).toNat then 1 else 0) ∧
      a = (if x = regF then f else (s.reg x).toNat) ∧ b = (if y = regF then f else (s.reg y).toNat) ∧
      exec (.subn x y) s = .next t ∧ (t.reg x).toNat = (b + 256 - a) % 256 ∧
      (x ≠ regF → (t.reg regF).toNat = f) ∧ KeepsRegsBut [regF, x] s t ∧ Advanced s t ∧ KeepsAllBut [.v, .pc] s t

/-- R110, R200, R209, R211: VF takes the bit shifted out, then Vx is shifted by one; where X = F the shift reads the new
flag; Y plays no part. -/
def Obligations.ShiftsMoveOneBit : Prop :=
  ∀ (x y : RegIx) (s : State),
    decode (packXYN 0x8 x y 0x6) = .known (.shr x y) ∧ decode (packXYN 0x8 x y 0xE) = .known (.shl x y) ∧
    (∃ t, exec (.shr x y) s = .next t ∧
      (t.reg x).toNat = (if x = regF then 0 else (s.reg x).toNat / 2) ∧
      (x ≠ regF → (t.reg regF).toNat = (s.reg x).toNat % 2) ∧
      KeepsRegsBut [regF, x] s t ∧ Advanced s t ∧ KeepsAllBut [.v, .pc] s t) ∧
    (∃ t, exec (.shl x y) s = .next t ∧
      (t.reg x).toNat = (if x = regF then 2 * ((s.reg x).toNat / 128) else 2 * (s.reg x).toNat % 256) ∧
      (x ≠ regF → (t.reg regF).toNat = (s.reg x).toNat / 128) ∧
      KeepsRegsBut [regF, x] s t ∧ Advanced s t ∧ KeepsAllBut [.v, .pc] s t)

/-- R212, R213: one draw is taken whatever NN is, and Vx is the draw under the mask; of the draw nothing is assumed. -/
def Obligations.RandomIsMasked : Prop :=
  ∀ (x : RegIx) (nn : Byte) (s : State),
    decode (packXNN 0xC x nn) = .known (.rnd x nn) ∧
    ∃ t, exec (.rnd x nn) s = .next t ∧
      (∀ k, (t.reg x).getLsbD k = ((Config.randByte s.draws).getLsbD k && nn.getLsbD k)) ∧ t.draws = s.draws + 1 ∧
      KeepsRegsBut [x] s t ∧ Advanced s t ∧ KeepsAllBut [.v, .pc, .draws] s t

/-! ### Index and memory (43_index_memory.md) -/

/-- R250, R251, R252: I is written, masked to 12 bits; no flag. -/
def Obligations.IndexIsWritten : Prop :=
  ∀ (x : RegIx) (nnn : Addr) (s : State),
    decode (packNNN 0xA nnn) = .known (.ldI nnn) ∧ decode (packXNN 0xF x 0x1E) = .known (.addI x) ∧
    decode (packXNN 0xF x 0x29) = .known (.ldF x) ∧
    (∃ t, exec (.ldI nnn) s = .next t ∧ t.i = nnn ∧ Advanced s t ∧ KeepsAllBut [.i, .pc] s t) ∧
    (∃ t, exec (.addI x) s = .next t ∧ t.i.toNat = (s.i.toNat + (s.reg x).toNat) % 4096 ∧ Advanced s t ∧
      KeepsAllBut [.i, .pc] s t) ∧
    (∃ t, exec (.ldF x) s = .next t ∧ t.i.toNat = (s.reg x).toNat * 5 ∧ Advanced s t ∧ KeepsAllBut [.i, .pc] s t)

/-- R253: the three digits at I, I + 1, I + 2, those above 0xFFF dropped under `Permissive` with an event each; under
`Halt` it halts with the first address above 0xFFF (which is 0x1000) and writes nothing. -/
def Obligations.BcdStoresDigits : Prop :=
  ∀ (x : RegIx) (s : State),
    decode (packXNN 0xF x 0x33) = .known (.ldB x) ∧
    (accessGoesOn s 3 → ∃ t, exec (.ldB x) s = .next t ∧
      (s.i.toNat ≤ 0xFFF → (t.mem.read s.i.toNat).toNat = (s.reg x).toNat / 100) ∧
      (s.i.toNat + 1 ≤ 0xFFF → (t.mem.read (s.i.toNat + 1)).toNat = (s.reg x).toNat / 10 % 10) ∧
      (s.i.toNat + 2 ≤ 0xFFF → (t.mem.read (s.i.toNat + 2)).toNat = (s.reg x).toNat % 10) ∧
      (∀ a, a < s.i.toNat ∨ s.i.toNat + 2 < a ∨ 0xFFF < a → t.mem.read a = s.mem.read a) ∧
      t.events = s.events ++ ignoredEvents s 3 ∧ Advanced s t ∧ KeepsAllBut [.mem, .pc, .events] s t) ∧
    (accessFaults s 3 → ∃ t, exec (.ldB x) s = .next t ∧
      HaltsWith s t .memoryBounds (some (encode (.ldB x))) 0x1000)

/-- R254: V0..Vx at I, I + 1, ..., and I advanced by X + 1; out of range as R73 says. -/
def Obligations.StoreRegistersAndAdvance : Prop :=
  ∀ (x : RegIx) (s : State),
    decode (packXNN 0xF x 0x55) = .known (.storeRegs x) ∧
    (accessGoesOn s (x.val + 1) → ∃ t, exec (.storeRegs x) s = .next t ∧
      (∀ r : RegIx, r ≤ x → s.i.toNat + r.val ≤ 0xFFF → t.mem.read (s.i.toNat + r.val) = s.reg r) ∧
      (∀ a, a < s.i.toNat ∨ s.i.toNat + x.val < a ∨ 0xFFF < a → t.mem.read a = s.mem.read a) ∧
      t.i.toNat = (s.i.toNat + x.val + 1) % 4096 ∧
      t.events = s.events ++ ignoredEvents s (x.val + 1) ∧ Advanced s t ∧
      KeepsAllBut [.mem, .i, .pc, .events] s t) ∧
    (accessFaults s (x.val + 1) → ∃ t, exec (.storeRegs x) s = .next t ∧
      HaltsWith s t .memoryBounds (some (encode (.storeRegs x))) 0x1000)

/-- R255: V0..Vx from I, I + 1, ..., the addresses using I on entry, and I advanced by X + 1; out of range as R72 says. -/
def Obligations.LoadRegistersAndAdvance : Prop :=
  ∀ (x : RegIx) (s : State),
    decode (packXNN 0xF x 0x65) = .known (.loadRegs x) ∧
    (accessGoesOn s (x.val + 1) → ∃ t, exec (.loadRegs x) s = .next t ∧
      (∀ r : RegIx, t.reg r = if r ≤ x then dataByte s r.val else s.reg r) ∧
      t.i.toNat = (s.i.toNat + x.val + 1) % 4096 ∧
      t.events = s.events ++ ignoredEvents s (x.val + 1) ∧ Advanced s t ∧ KeepsAllBut [.v, .i, .pc, .events] s t) ∧
    (accessFaults s (x.val + 1) → ∃ t, exec (.loadRegs x) s = .next t ∧
      HaltsWith s t .memoryBounds (some (encode (.loadRegs x))) 0x1000)

/-- R254, R255: registers stored and loaded back from the same I are what they were, whatever they held in between. -/
def Obligations.StoreThenLoadRestores : Prop :=
  ∀ (x : RegIx) (s : State) (v' : Vector Byte 16), s.i.toNat + x.val ≤ 0xFFF →
    ∃ t u, exec (.storeRegs x) s = .next t ∧ exec (.loadRegs x) { t with i := s.i, v := v' } = .next u ∧
      ∀ r : RegIx, r ≤ x → u.reg r = s.reg r

/-- R88, R411: FX55 with X = 1 and I = PC + 2 overwrites the next instruction, and the next step executes V0 ++ V1. -/
def Obligations.StoredWordIsExecutedNext : Prop :=
  ∀ (s : State) (i : Instr), s.status = .running → s.phase = .unbounded → s.pc.toNat ≤ 0xFFC →
    s.mem.read s.pc.toNat = 0xF1 → s.mem.read (s.pc.toNat + 1) = 0x55 → s.i.toNat = s.pc.toNat + 2 →
    decode (s.reg 0 ++ s.reg 1) = .known i →
    ∃ t, step s = .next t ∧ t.pc.toNat = s.pc.toNat + 2 ∧ step t = exec i t

/-! ### Display (44_display.md) -/

/-- R291, R300: every pixel is 0 and one frame_updated with the cleared frame is emitted. -/
def Obligations.ClearScreen : Prop :=
  ∀ s : State,
    decode 0x00E0 = .known .cls ∧
    ∃ t, exec .cls s = .next t ∧ (∀ x y, t.fb.pixel x y = false) ∧
      t.events = s.events ++ [.frameUpdated t.fb] ∧ Advanced s t ∧ KeepsAllBut [.fb, .events, .pc] s t

/-- R292, R300: every pixel the sprite covers is flipped and every other kept, VF is 1 iff a covered pixel was 1, the
events are those of the rows above 0xFFF and one frame_updated; under `Halt` a row above 0xFFF halts the block. -/
def Obligations.DrawXorsSprite : Prop :=
  ∀ (x y : RegIx) (n : BitVec 4) (s : State),
    decode (packXYN 0xD x y n) = .known (.drw x y n) ∧
    (accessGoesOn s n.toNat → ∃ t, exec (.drw x y n) s = .next t ∧
      (∀ px py, t.fb.pixel px py = (s.fb.pixel px py != spriteCovers s x y n.toNat px py)) ∧
      (spriteHits s x y n.toNat → t.reg regF = 1) ∧ (¬spriteHits s x y n.toNat → t.reg regF = 0) ∧
      t.events = s.events ++ ignoredEvents s n.toNat ++ [.frameUpdated t.fb] ∧
      KeepsRegsBut [regF] s t ∧ Advanced s t ∧ KeepsAllBut [.v, .fb, .events, .pc] s t) ∧
    (accessFaults s n.toNat → ∃ t, exec (.drw x y n) s = .next t ∧
      HaltsWith s t .memoryBounds (some (encode (.drw x y n))) 0x1000)

/-- R292, R293: the same sprite drawn twice at the same place restores every pixel. The second draw reports what R292's
pixel rule gives: VF = 1 iff some covered pixel was 0 before the first draw (Log 18: R293's own words for this flag hold
where no covered pixel was 1). -/
def Obligations.DrawTwiceRestores : Prop :=
  ∀ (x y : RegIx) (n : BitVec 4) (s : State), x ≠ regF → y ≠ regF → accessGoesOn s n.toNat →
    ∃ t u, exec (.drw x y n) s = .next t ∧ exec (.drw x y n) t = .next u ∧
      (∀ px py, u.fb.pixel px py = s.fb.pixel px py) ∧
      ((∃ px py, spriteCovers s x y n.toNat px py = true ∧ s.fb.pixel px py = false) → u.reg regF = 1) ∧
      ((∀ px py, spriteCovers s x y n.toNat px py = true → s.fb.pixel px py = true) → u.reg regF = 0)

/-! ### Keypad and timers (45_keypad_timers.md, 60_exceptions.md) -/

/-- R320, R321, R356: with Vx at most 0xF the skip follows the key; above, KeyIndexRange, before the keypad is read. -/
def Obligations.SkipsOnKey : Prop :=
  ∀ (x : RegIx) (s : State),
    decode (packXNN 0xE x 0x9E) = .known (.skp x) ∧ decode (packXNN 0xE x 0xA1) = .known (.sknp x) ∧
    ((s.reg x).toNat ≤ 0xF →
      (∃ t, exec (.skp x) s = .next t ∧ Skips (s.keys.getLsbD (s.reg x).toNat) s t ∧ KeepsAllBut [.pc] s t) ∧
      (∃ t, exec (.sknp x) s = .next t ∧ Skips (!s.keys.getLsbD (s.reg x).toNat) s t ∧ KeepsAllBut [.pc] s t)) ∧
    (0xF < (s.reg x).toNat →
      (∃ t, exec (.skp x) s = .next t ∧ HaltsWith s t .keyIndexRange (some (encode (.skp x))) (s.reg x).toNat) ∧
      (∃ t, exec (.sknp x) s = .next t ∧ HaltsWith s t .keyIndexRange (some (encode (.sknp x))) (s.reg x).toNat))

/-- R322: the lowest pressed key is loaded; with none pressed nothing but PC changes. -/
def Obligations.KeyPollTakesLowest : Prop :=
  ∀ (x : RegIx) (s : State),
    decode (packXNN 0xF x 0x0A) = .known (.ldVxK x) ∧
    ∃ t, exec (.ldVxK x) s = .next t ∧
      (∀ k, k < 16 → s.keys.getLsbD k = true → (∀ j, j < k → s.keys.getLsbD j = false) → (t.reg x).toNat = k) ∧
      ((∀ k, k < 16 → s.keys.getLsbD k = false) → t.reg x = s.reg x) ∧
      KeepsRegsBut [x] s t ∧ Advanced s t ∧ KeepsAllBut [.v, .pc] s t

/-- R323, R324, R325, R388: DT is read and loaded, ST loaded, and `sound_active` follows ST at once. -/
def Obligations.TimersAreReadAndLoaded : Prop :=
  ∀ (x : RegIx) (s : State),
    decode (packXNN 0xF x 0x07) = .known (.ldVxDt x) ∧ decode (packXNN 0xF x 0x15) = .known (.ldDtVx x) ∧
    decode (packXNN 0xF x 0x18) = .known (.ldStVx x) ∧
    (∃ t, exec (.ldVxDt x) s = .next t ∧ t.reg x = s.dt ∧ KeepsRegsBut [x] s t ∧ Advanced s t ∧
      KeepsAllBut [.v, .pc] s t) ∧
    (∃ t, exec (.ldDtVx x) s = .next t ∧ t.dt = s.reg x ∧ Advanced s t ∧ KeepsAllBut [.dt, .pc] s t) ∧
    (∃ t, exec (.ldStVx x) s = .next t ∧ t.st = s.reg x ∧ t.soundPort = s.reg x ∧
      (t.soundActive = true ↔ (s.reg x).toNat ≠ 0) ∧ Advanced s t ∧ KeepsAllBut [.st, .pc] s t)

/-! ### Over all instructions -/

/-- R33, R35, R44, R51, R55, R70, R134: an instruction either halts the block with its own word in the record, or changes,
PC apart, only the pieces of state the rules let it write. -/
def Obligations.OnlyItsPiecesAreWritten : Prop :=
  ∀ (i : Instr) (s : State), ∃ t, exec i s = .next t ∧
    (KeepsAllBut (.pc :: writes i) s t ∨ ∃ code info, mayRaise s i code = true ∧
      HaltsWith s t code (some (encode i)) info)

/-- R32, R33, R215: an instruction changes no general register but those the table of R33 lets it write; VF changes as a
flag under 8XY4, 8XY5, 8XY6, 8XY7, 8XYE and DXYN alone. -/
def Obligations.OnlyItsRegistersAreWritten : Prop :=
  ∀ (i : Instr) (s : State), ∃ t, exec i s = .next t ∧ KeepsRegsBut (writesRegs i) s t

/-- R45: no instruction reads ST: two states that differ in ST alone go to states that differ in ST alone. -/
def Obligations.SoundTimerIsNeverRead : Prop :=
  ∀ (i : Instr) (s : State) (b : Byte), ∃ t t', exec i s = .next t ∧ exec i { s with st := b } = .next t' ∧
    KeepsAllBut [.st] t t'

/-- R58: no instruction reads the event stream, which only grows, and by the same events whatever it held. -/
def Obligations.EventsAreNeverRead : Prop :=
  ∀ (i : Instr) (s : State) (es : List Event), ∃ t new, exec i s = .next t ∧ t.events = s.events ++ new ∧
    exec i { s with events := es } = .next { t with events := es ++ new }

/-! ### Scheduler (40_pipeline.md) and timers (60_exceptions.md) -/

/-- R141, R145: at a boundary a tick takes the keypad snapshot and makes k steps due; not Running, it changes nothing. -/
def Obligations.TickTakesSnapshot : Prop :=
  ∀ (s : State) (k : Nat) (keys : BitVec 16) (cs : List HostCall), s.phase = .boundary → s.calls = .tick k keys :: cs →
    ∃ t, step s = .next t ∧ t.calls = cs ∧
      (s.status = .running → t.keys = keys ∧ t.phase = .steps k ∧ KeepsAllBut [.keys, .phase, .calls] s t) ∧
      (s.status ≠ .running → KeepsAllBut [.calls] s t)

/-- R385, R387: the end of a tick decrements each timer once, never below 0. -/
def Obligations.TickEndCountsDown : Prop :=
  ∀ s : State, s.phase = .steps 0 → ∃ t, step s = .next t ∧ t.dt.toNat = s.dt.toNat - 1 ∧ t.st.toNat = s.st.toNat - 1 ∧
    t.phase = .boundary ∧ KeepsAllBut [.dt, .st, .phase] s t

/-- R140, R142, R143, R145: a whole tick, through the model's own fields (Log 2, 3, 19). At a boundary `tick(k, keys)` on a
Running block runs exactly the k instruction steps that the block with that snapshot runs one after another, then
decrements the timers once; if one of the steps halts the block, the tick ends there and the timers are not decremented;
on a block that is not Running it has no effect. -/
def Obligations.WholeTick : Prop :=
  ∀ (s u : State) (k : Nat) (keys : BitVec 16) (cs : List HostCall), s.phase = .boundary →
    s.calls = .tick k keys :: cs → u = { s with keys := keys, phase := .unbounded, calls := [] } →
    (s.status ≠ .running → core.run 1 s = .next { s with calls := cs }) ∧
    (∀ t, s.status = .running → core.run k u = .next t → t.status = .running →
      ∃ t', core.run (k + 2) s = .next t' ∧ t'.dt.toNat = t.dt.toNat - 1 ∧ t'.st.toNat = t.st.toNat - 1 ∧
        t'.phase = .boundary ∧ t'.calls = cs ∧ KeepsAllBut [.dt, .st, .phase, .calls] t t') ∧
    (∀ j t t1, s.status = .running → j < k → core.run j u = .next t → t.status = .running → step t = .next t1 →
      t1.status = .halted → core.run (j + 2) s = .next { t1 with calls := cs })

/-- R145, R364: a block that is not Running lets every tick pass without any effect. -/
def Obligations.StoppedBlockIsFrozen : Prop :=
  ∀ (ticks : List (Nat × BitVec 16)) (s : State), s.status ≠ .running → s.phase = .boundary →
    s.calls = ticks.map (fun p => .tick p.1 p.2) → core.run ticks.length s = .next { s with calls := [] }

/-- R140, R144, R385: over n ticks of no step each timer holding v comes to max(0, v - n), and nothing but the timers and
the snapshot changes. -/
def Obligations.TimersReachZero : Prop :=
  ∀ (n : Nat) (keys : BitVec 16) (s : State), s.status = .running → s.phase = .boundary →
    s.calls = List.replicate n (.tick 0 keys) →
    ∃ t, core.run (2 * n) s = .next t ∧ t.dt.toNat = s.dt.toNat - n ∧ t.st.toNat = s.st.toNat - n ∧
      t.calls = [] ∧ KeepsAllBut [.dt, .st, .keys, .calls] s t

/-! ### Initialisation (70_reset_and_hazards.md) -/

/-- R400, R401, R402, R405: `init` of 1 to 3583 bytes, whatever the status: every register, timer, pixel and key zero, PC
at 0x200, the font at 0x000, the program at 0x200, zero elsewhere, Running, no fault, no event. -/
def Obligations.InitLoadsProgram : Prop :=
  ∀ (s : State) (rom : List Byte) (cs : List HostCall), s.phase = .boundary → s.calls = .init rom :: cs →
    1 ≤ rom.length → rom.length ≤ 3583 →
    ∃ t, step s = .next t ∧ t.status = .running ∧ t.fault = none ∧ t.pc.toNat = 0x200 ∧ t.i = 0 ∧ t.sp.val = 0 ∧
      t.dt = 0 ∧ t.st = 0 ∧ t.keys = 0 ∧ (∀ r, t.reg r = 0) ∧ (∀ j : Fin 16, t.stack[j.val] = 0) ∧
      (∀ x y, t.fb.pixel x y = false) ∧
      (∀ a : Fin 80, t.mem.read a.val = s.font[a.val]) ∧
      (∀ j : Fin rom.length, t.mem.read (0x200 + j.val) = rom[j.val]) ∧
      (∀ a, 80 ≤ a → a < 0x200 ∨ 0x200 + rom.length ≤ a → t.mem.read a = 0) ∧
      t.calls = cs ∧ KeepsAllBut [.v, .i, .pc, .sp, .stack, .dt, .st, .mem, .fb, .keys, .status, .fault, .calls] s t

/-- R351, R352, R404: `init` of no byte or of more than 3583 records the load error and leaves the block Unloaded, with
memory holding only the font. -/
def Obligations.InitRefusesBadLength : Prop :=
  ∀ (s : State) (rom : List Byte) (cs : List HostCall), s.phase = .boundary → s.calls = .init rom :: cs →
    rom.length = 0 ∨ 3583 < rom.length →
    ∃ t, step s = .next t ∧ t.status = .unloaded ∧
      t.fault = some ⟨if rom.length = 0 then .romEmpty else .romTooLarge, none, none, rom.length⟩ ∧
      t.pc.toNat = 0x200 ∧ t.i = 0 ∧ t.sp.val = 0 ∧ t.dt = 0 ∧ t.st = 0 ∧ t.keys = 0 ∧ (∀ r, t.reg r = 0) ∧
      (∀ j : Fin 16, t.stack[j.val] = 0) ∧ (∀ x y, t.fb.pixel x y = false) ∧
      (∀ a : Fin 80, t.mem.read a.val = s.font[a.val]) ∧ (∀ a, 80 ≤ a → t.mem.read a = 0) ∧
      t.calls = cs ∧ KeepsAllBut [.v, .i, .pc, .sp, .stack, .dt, .st, .mem, .fb, .keys, .status, .fault, .calls] s t

/-- R59, R403, with the model's choices of Log 1, 2, 6, 7, 22: what State.reset holds; the font's bytes are the default that
the spec takes from general knowledge. -/
def Obligations.ResetHoldsInitialValues : Prop :=
  (∀ r, State.reset.reg r = 0) ∧ State.reset.i = 0 ∧ State.reset.pc.toNat = 0x200 ∧ State.reset.sp.val = 0 ∧
    (∀ j : Fin 16, State.reset.stack[j.val] = 0) ∧ State.reset.dt = 0 ∧ State.reset.st = 0 ∧ State.reset.keys = 0 ∧
    State.reset.status = .running ∧ State.reset.fault = none ∧ State.reset.policy = .halt ∧
    State.reset.phase = .unbounded ∧ (∀ x y, State.reset.fb.pixel x y = false) ∧
    (∀ a : Fin 80, State.reset.mem.read a.val = defaultFont[a.val]) ∧ (∀ a, 80 ≤ a → State.reset.mem.read a = 0)

/-- R400-R403, Log 1: `init` of any legal ROM whose bytes are all 0, with the default parameters, is State.reset, at a
boundary, whatever the state was. -/
def Obligations.InitOfZerosIsReset : Prop :=
  ∀ (s : State) (n : Nat) (cs : List HostCall), s.phase = .boundary → s.calls = .init (List.replicate n 0) :: cs →
    1 ≤ n → n ≤ 3583 → s.font = defaultFont → s.policy = .halt →
    step s = .next { State.reset with phase := .boundary, calls := cs, draws := s.draws, events := s.events }

/-! ### The invariant -/

/-- R59, Log 1, 2: the invariant holds at reset. -/
def Obligations.ResetSatisfiesInvariant : Prop := State.reset.Inv

/-- R36, R41, R57, R143: every step keeps the invariant: memory canonical, PC at most 0x10FE, stack slots at most 0x1000, a
tick under way only while Running, and the fault record in agreement with the status. -/
def Obligations.StepKeepsInvariant : Prop :=
  ∀ s t : State, s.Inv → step s = .next t → t.Inv
end

