-- ==== Sys2Proof/Laws/Fields.lean ====
section
/-! SUPPORT. The fields of a packed word are the fields it was packed from (30_encoding.md R101), and a word is its two
bytes (20_memory.md R75). -/

namespace Sys2Proof

/-- A word packed from class, X, NN is one packed from class and the NNN that X and NN make. -/
theorem packXNN_eq (c : BitVec 4) (x : RegIx) (nn : Byte) : packXNN c x nn = packNNN c (regField x ++ nn) := rfl

/-- A word packed from class, X, Y, N is one packed from class, X and the NN that Y and N make. -/
theorem packXYN_eq (c : BitVec 4) (x y : RegIx) (n : BitVec 4) : packXYN c x y n = packXNN c x (regField y ++ n) := rfl

/-- A bit of two words put together. -/
theorem getLsbD_pair {n m : Nat} (a : BitVec n) (b : BitVec m) (k : Nat) :
    (a ++ b).getLsbD k = if k < m then b.getLsbD k else a.getLsbD (k - m) := by
  rw [BitVec.getLsbD_append]

/-- The low part of two words put together. -/
theorem extract_low {n m : Nat} (a : BitVec n) (b : BitVec m) : (a ++ b).extractLsb' 0 m = b := by
  apply BitVec.eq_of_getLsbD_eq
  intro k hk
  rw [BitVec.getLsbD_extractLsb', getLsbD_pair]
  simp [hk]

/-- The high part of two words put together. -/
theorem extract_high {n m : Nat} (a : BitVec n) (b : BitVec m) : (a ++ b).extractLsb' m n = a := by
  apply BitVec.eq_of_getLsbD_eq
  intro k hk
  rw [BitVec.getLsbD_extractLsb', getLsbD_pair]
  simp [hk]

/-- A part of the low word of two put together. -/
theorem extract_inside {n m : Nat} (a : BitVec n) (b : BitVec m) (l w : Nat) (h : l + w ≤ m) :
    (a ++ b).extractLsb' l w = b.extractLsb' l w := by
  apply BitVec.eq_of_getLsbD_eq
  intro k hk
  rw [BitVec.getLsbD_extractLsb', BitVec.getLsbD_extractLsb', getLsbD_pair, if_pos (by omega)]

@[simp] theorem fieldClass_packNNN (c : BitVec 4) (nnn : Addr) : fieldClass (packNNN c nnn) = c := extract_high c nnn

@[simp] theorem fieldNNN_packNNN (c : BitVec 4) (nnn : Addr) : fieldNNN (packNNN c nnn) = nnn := extract_low c nnn

@[simp] theorem fieldClass_packXNN (c : BitVec 4) (x : RegIx) (nn : Byte) : fieldClass (packXNN c x nn) = c :=
  fieldClass_packNNN c _

@[simp] theorem fieldX_packXNN (c : BitVec 4) (x : RegIx) (nn : Byte) : fieldX (packXNN c x nn) = x := by
  have h : (packXNN c x nn).extractLsb' 8 4 = regField x :=
    (extract_inside c (regField x ++ nn) 8 4 (by omega)).trans (extract_high (regField x) nn)
  unfold fieldX
  rw [h]
  rfl

@[simp] theorem fieldNN_packXNN (c : BitVec 4) (x : RegIx) (nn : Byte) : fieldNN (packXNN c x nn) = nn :=
  (extract_inside c (regField x ++ nn) 0 8 (by omega)).trans (extract_low (regField x) nn)

@[simp] theorem fieldClass_packXYN (c : BitVec 4) (x y : RegIx) (n : BitVec 4) : fieldClass (packXYN c x y n) = c :=
  fieldClass_packNNN c _

@[simp] theorem fieldX_packXYN (c : BitVec 4) (x y : RegIx) (n : BitVec 4) : fieldX (packXYN c x y n) = x :=
  fieldX_packXNN c x _

@[simp] theorem fieldY_packXYN (c : BitVec 4) (x y : RegIx) (n : BitVec 4) : fieldY (packXYN c x y n) = y := by
  have h : (packXYN c x y n).extractLsb' 4 4 = regField y :=
    (extract_inside c (regField x ++ (regField y ++ n)) 4 4 (by omega)).trans
      ((extract_inside (regField x) (regField y ++ n) 4 4 (by omega)).trans (extract_high (regField y) n))
  unfold fieldY
  rw [h]
  rfl

@[simp] theorem fieldN_packXYN (c : BitVec 4) (x y : RegIx) (n : BitVec 4) : fieldN (packXYN c x y n) = n :=
  (extract_inside c (regField x ++ (regField y ++ n)) 0 4 (by omega)).trans
    ((extract_inside (regField x) (regField y ++ n) 0 4 (by omega)).trans (extract_low (regField y) n))

/-- A word is its high byte followed by its low byte. -/
theorem hiByte_append_loByte (w : Word) : hiByte w ++ loByte w = w := by
  apply BitVec.eq_of_getLsbD_eq
  intro k hk
  refine (getLsbD_pair (hiByte w) (loByte w) k).trans ?_
  unfold hiByte loByte
  rw [BitVec.getLsbD_extractLsb', BitVec.getLsbD_extractLsb']
  by_cases h : k < 8
  · simp [h]
  · simp [h, show k - 8 < 8 by omega, show 8 + (k - 8) = k by omega]

end Sys2Proof
end

