-- ==== Sys2Proof/Laws/Memory.lean ====
section
/-! SUPPORT. The laws of memory: what a read gives after a write, that every operation keeps the canonical form, and that
canonical memories that read alike are equal. -/

namespace Sys2Proof.Machine

/-! ### Reads -/

@[simp] theorem Memory.read_nil (a : Nat) : Memory.read [] a = unlistedByte a := rfl

theorem Memory.read_cons (b : Nat) (u : Byte) (m : Memory) (a : Nat) :
    Memory.read ((b, u) :: m) a = if b = a then u else Memory.read m a := rfl

/-- Above the address space an unlisted address reads 0; so does every one from 0x50 on. -/
theorem unlistedByte_of_le {a : Nat} (h : 80 ≤ a) : unlistedByte a = 0 := by
  simp [unlistedByte, Nat.not_lt.mpr h]

theorem Memory.read_unlist (m : Memory) (a b : Nat) :
    (m.unlist a).read b = if b = a then unlistedByte a else m.read b := by
  induction m with
  | nil => by_cases h : b = a <;> simp [Memory.unlist, h]
  | cons c m ih =>
    obtain ⟨k, u⟩ := c
    simp only [Memory.unlist, List.filter_cons] at ih ⊢
    by_cases hk : k = a
    · subst hk
      simp only [bne_self_eq_false, Bool.false_eq_true, if_false, ih, Memory.read_cons]
      by_cases hb : b = k
      · simp [hb]
      · simp [hb, Ne.symm hb]
    · simp only [bne_iff_ne, ne_eq, hk, not_false_eq_true, if_true, Memory.read_cons, ih]
      by_cases hb : b = a
      · subst hb; simp [hk]
      · simp [hb]

theorem Memory.read_list (m : Memory) (a b : Nat) (v : Byte) (h : ∀ c ∈ m, c.1 ≠ a) :
    (Memory.list m a v).read b = if b = a then v else m.read b := by
  induction m with
  | nil =>
    rw [Memory.list, Memory.read_cons]
    by_cases hb : b = a
    · simp [hb]
    · rw [if_neg hb, if_neg (Ne.symm hb)]
  | cons c m ih =>
    obtain ⟨k, u⟩ := c
    have hk : k ≠ a := h (k, u) (by simp)
    specialize ih fun c hc => h c (by simp [hc])
    by_cases hlt : a < k
    · simp only [Memory.list, hlt, if_true, Memory.read_cons]
      by_cases hb : b = a
      · simp [hb]
      · simp [hb, Ne.symm hb]
    · simp only [Memory.list, hlt, if_false, Memory.read_cons, ih]
      by_cases hb : b = a
      · subst hb; simp [hk]
      · simp [hb]

theorem Memory.unlist_ne (m : Memory) (a : Nat) : ∀ c ∈ m.unlist a, c.1 ≠ a := by
  intro c hc
  simpa [Memory.unlist] using (List.mem_filter.mp hc).2

/-- A read after a write gives the byte written at its address, and what it gave before everywhere else. -/
theorem Memory.read_write (m : Memory) (a b : Nat) (v : Byte) :
    (m.write a v).read b = if b = a then v else m.read b := by
  unfold Memory.write
  split
  · next h => rw [Memory.read_unlist, h]
  · rw [Memory.read_list _ _ _ _ (m.unlist_ne a), Memory.read_unlist]
    split <;> rfl

/-- A read after bytes are placed one after another. -/
theorem Memory.read_writeList (vs : List Byte) (m : Memory) (a b : Nat) :
    (m.writeList a vs).read b = if a ≤ b ∧ b < a + vs.length then vs.getD (b - a) 0 else m.read b := by
  induction vs generalizing m a with
  | nil => simp [Memory.writeList]
  | cons v vs ih =>
    rw [Memory.writeList, ih, Memory.read_write, List.length_cons]
    by_cases hb : b = a
    · subst hb; simp
    · by_cases hr : a + 1 ≤ b ∧ b < a + 1 + vs.length
      · have hr' : a ≤ b ∧ b < a + (vs.length + 1) := by omega
        obtain ⟨d, hd⟩ : ∃ d, b - a = d + 1 := ⟨b - a - 1, by omega⟩
        simp [hr, hr', hd, show b - (a + 1) = d by omega]
      · have hr' : ¬(a ≤ b ∧ b < a + (vs.length + 1)) := by omega
        rw [if_neg hr, if_neg hr', if_neg hb]

/-! ### The canonical form -/

/-- A pair may be listed: inside the address space, and not what its address reads as unlisted. -/
def Memory.mayList (c : Host.Cell) : Bool := decide (c.1 ≤ Config.lastAddr) && c.2 != unlistedByte c.1

theorem Memory.wf_iff (m : Memory) :
    m.wf = true ↔ Memory.risingFrom 0 m = true ∧ ∀ c ∈ m, Memory.mayList c = true := by
  simp [Memory.wf, Memory.mayList, List.all_eq_true]

theorem Memory.risingFrom_of_le {k l : Nat} {m : Memory} (h : k ≤ l) (hm : Memory.risingFrom l m = true) :
    Memory.risingFrom k m = true := by
  cases m with
  | nil => rfl
  | cons c m =>
    simp only [Memory.risingFrom, Bool.and_eq_true, decide_eq_true_eq] at hm ⊢
    exact ⟨by omega, hm.2⟩

theorem Memory.le_of_risingFrom {k : Nat} {m : Memory} (hm : Memory.risingFrom k m = true) : ∀ c ∈ m, k ≤ c.1 := by
  induction m generalizing k with
  | nil => simp
  | cons c m ih =>
    simp only [Memory.risingFrom, Bool.and_eq_true, decide_eq_true_eq] at hm
    intro d hd
    rcases List.mem_cons.mp hd with rfl | hd
    · exact hm.1
    · have := ih hm.2 d hd; omega

theorem Memory.risingFrom_unlist {k : Nat} {m : Memory} (a : Nat) (hm : Memory.risingFrom k m = true) :
    Memory.risingFrom k (m.unlist a) = true := by
  induction m generalizing k with
  | nil => rfl
  | cons c m ih =>
    simp only [Memory.risingFrom, Bool.and_eq_true, decide_eq_true_eq] at hm
    simp only [Memory.unlist, List.filter_cons] at ih ⊢
    split
    · simp only [Memory.risingFrom, Bool.and_eq_true, decide_eq_true_eq]
      exact ⟨hm.1, ih hm.2⟩
    · exact Memory.risingFrom_of_le (by omega) (ih hm.2)

theorem Memory.risingFrom_list {k : Nat} {m : Memory} (a : Nat) (v : Byte) (ha : k ≤ a) (h : ∀ c ∈ m, c.1 ≠ a)
    (hm : Memory.risingFrom k m = true) : Memory.risingFrom k (Memory.list m a v) = true := by
  induction m generalizing k with
  | nil => simpa [Memory.list, Memory.risingFrom] using ha
  | cons c m ih =>
    simp only [Memory.risingFrom, Bool.and_eq_true, decide_eq_true_eq] at hm
    have hne : c.1 ≠ a := h c (by simp)
    unfold Memory.list
    split
    · next hlt =>
      simp only [Memory.risingFrom, Bool.and_eq_true, decide_eq_true_eq]
      exact ⟨ha, by omega, hm.2⟩
    · next hlt =>
      simp only [Memory.risingFrom, Bool.and_eq_true, decide_eq_true_eq]
      exact ⟨hm.1, ih (by omega) (fun d hd => h d (by simp [hd])) hm.2⟩

theorem Memory.mem_list {m : Memory} {a : Nat} {v : Byte} {c : Host.Cell} (h : c ∈ Memory.list m a v) :
    c = (a, v) ∨ c ∈ m := by
  induction m with
  | nil => simpa [Memory.list] using h
  | cons d m ih =>
    unfold Memory.list at h
    split at h
    · simpa using h
    · rcases List.mem_cons.mp h with rfl | h
      · exact .inr (by simp)
      · exact (ih h).imp_right fun h => by simp [h]

/-- A write inside the address space keeps the canonical form. -/
theorem Memory.wf_write {m : Memory} {a : Nat} (v : Byte) (ha : a ≤ Config.lastAddr) (hm : m.wf = true) :
    (m.write a v).wf = true := by
  rw [Memory.wf_iff] at hm ⊢
  have hu : ∀ c ∈ m.unlist a, Memory.mayList c = true := fun c hc => hm.2 c (List.mem_filter.mp hc).1
  unfold Memory.write
  split
  · exact ⟨Memory.risingFrom_unlist a hm.1, hu⟩
  · next hv =>
    refine ⟨Memory.risingFrom_list a v (Nat.zero_le a) (m.unlist_ne a) (Memory.risingFrom_unlist a hm.1), ?_⟩
    intro c hc
    rcases Memory.mem_list hc with rfl | hc
    · simp [Memory.mayList, ha, hv]
    · exact hu c hc

/-- Bytes placed inside the address space keep the canonical form. -/
theorem Memory.wf_writeList (vs : List Byte) {m : Memory} {a : Nat} (ha : a + vs.length ≤ Config.memSize)
    (hm : m.wf = true) : (m.writeList a vs).wf = true := by
  induction vs generalizing m a with
  | nil => exact hm
  | cons v vs ih =>
    simp only [List.length_cons, Config.memSize] at ha
    exact ih (by simp only [Config.memSize]; omega) (Memory.wf_write v (by simp only [Config.lastAddr]; omega) hm)

/-- The memory at reset is in canonical form. -/
theorem Memory.wf_reset : State.reset.mem.wf = true := rfl

/-- A listed pair of a rising memory is what its address reads as. -/
theorem Memory.read_of_mem {k : Nat} {m : Memory} (hm : Memory.risingFrom k m = true) {c : Host.Cell} (hc : c ∈ m) :
    m.read c.1 = c.2 := by
  induction m generalizing k with
  | nil => simp at hc
  | cons d m ih =>
    obtain ⟨b, u⟩ := d
    simp only [Memory.risingFrom, Bool.and_eq_true] at hm
    rcases List.mem_cons.mp hc with rfl | hc
    · simp [Memory.read_cons]
    · have := Memory.le_of_risingFrom hm.2 c hc
      have hne : b ≠ c.1 := by omega
      simp [Memory.read_cons, hne, ih hm.2 hc]

/-- Below its first address a rising memory reads as if it listed nothing. -/
theorem Memory.read_of_lt {k : Nat} {m : Memory} (hm : Memory.risingFrom k m = true) {a : Nat} (ha : a < k) :
    m.read a = unlistedByte a := by
  induction m generalizing k with
  | nil => rfl
  | cons d m ih =>
    obtain ⟨b, u⟩ := d
    simp only [Memory.risingFrom, Bool.and_eq_true, decide_eq_true_eq] at hm
    have hne : b ≠ a := by omega
    rw [Memory.read_cons, if_neg hne]
    exact ih hm.2 (by omega)

theorem Memory.ext_aux {k : Nat} {m n : Memory} (hm : Memory.risingFrom k m = true) (hn : Memory.risingFrom k n = true)
    (cm : ∀ c ∈ m, Memory.mayList c = true) (cn : ∀ c ∈ n, Memory.mayList c = true)
    (h : ∀ a, k ≤ a → m.read a = n.read a) : m = n := by
  have listed : ∀ {b : Nat} {u : Byte}, Memory.mayList (b, u) = true → u ≠ unlistedByte b := by
    intro b u hc
    simp only [Memory.mayList, Bool.and_eq_true, bne_iff_ne] at hc
    exact hc.2
  induction m generalizing k n with
  | nil =>
    cases n with
    | nil => rfl
    | cons d n =>
      obtain ⟨b, u⟩ := d
      simp only [Memory.risingFrom, Bool.and_eq_true, decide_eq_true_eq] at hn
      have := h b hn.1
      rw [Memory.read_nil, Memory.read_cons, if_pos rfl] at this
      exact absurd this.symm (listed (cn _ (by simp)))
  | cons c m ih =>
    obtain ⟨a, v⟩ := c
    simp only [Memory.risingFrom, Bool.and_eq_true, decide_eq_true_eq] at hm
    cases n with
    | nil =>
      have := h a hm.1
      rw [Memory.read_nil, Memory.read_cons, if_pos rfl] at this
      exact absurd this (listed (cm _ (by simp)))
    | cons d n =>
      obtain ⟨b, u⟩ := d
      simp only [Memory.risingFrom, Bool.and_eq_true, decide_eq_true_eq] at hn
      have hab : a = b := by
        rcases Nat.lt_trichotomy a b with hlt | heq | hlt
        · have := h a hm.1
          rw [Memory.read_cons, if_pos rfl, Memory.read_cons, if_neg (by omega),
            Memory.read_of_lt hn.2 (by omega)] at this
          exact absurd this (listed (cm _ (by simp)))
        · exact heq
        · have := h b hn.1
          rw [Memory.read_cons, if_neg (by omega), Memory.read_of_lt hm.2 (by omega), Memory.read_cons,
            if_pos rfl] at this
          exact absurd this.symm (listed (cn _ (by simp)))
      subst hab
      have hv : v = u := by
        have := h a hm.1
        rwa [Memory.read_cons, if_pos rfl, Memory.read_cons, if_pos rfl] at this
      subst hv
      have ht : m = n := by
        refine ih hm.2 hn.2 (fun c hc => cm c (by simp [hc])) (fun c hc => cn c (by simp [hc])) ?_
        intro x hx
        have := h x (by omega)
        rwa [Memory.read_cons, if_neg (by omega), Memory.read_cons, if_neg (by omega)] at this
      rw [ht]

/-- Canonical memories that read alike are equal data. -/
theorem Memory.ext_of_wf {m n : Memory} (hm : m.wf = true) (hn : n.wf = true) (h : ∀ a, m.read a = n.read a) : m = n := by
  rw [Memory.wf_iff] at hm hn
  exact Memory.ext_aux hm.1 hn.1 hm.2 hn.2 fun a _ => h a

/-! ### The memory reset -/

/-- After the memory reset the font lies at 0x000-0x04F and every other byte is 0 (70_reset_and_hazards.md R401). -/
theorem memReset_read (font : Font) (a : Nat) :
    (memReset font).read a = if h : a < 80 then font[a] else 0 := by
  rw [memReset, Memory.read_writeList, Memory.read_writeList]
  by_cases h : a < 80
  · simp [h]
  · simp [h, unlistedByte, Config.fontSize]

theorem memReset_wf (font : Font) : (memReset font).wf = true :=
  Memory.wf_writeList _ (by simp [Config.memSize])
    (Memory.wf_writeList _ (by simp [Config.fontSize, Config.memSize]) rfl)

/-- With the default font the memory reset lists nothing: it is the memory of `State.reset`. -/
theorem memReset_default : memReset defaultFont = State.reset.mem :=
  Memory.ext_of_wf (memReset_wf _) Memory.wf_reset fun a => by
    rw [memReset_read]; rfl

end Sys2Proof.Machine
end

