-- ==== Sys2Proof/Laws/State.lean ====
section
/-! SUPPORT. One lemma per field per update of the state, each true by rfl, so that no proof unfolds a record update; and
what a register reads as after a write. -/

namespace Sys2Proof.Machine

/-! ### setV -/

@[simp] theorem State.setV_v (s : State) (x : RegIx) (b : Byte) : (s.setV x b).v = s.v.set x.val b := rfl
@[simp] theorem State.setV_i (s : State) (x : RegIx) (b : Byte) : (s.setV x b).i = s.i := rfl
@[simp] theorem State.setV_pc (s : State) (x : RegIx) (b : Byte) : (s.setV x b).pc = s.pc := rfl
@[simp] theorem State.setV_sp (s : State) (x : RegIx) (b : Byte) : (s.setV x b).sp = s.sp := rfl
@[simp] theorem State.setV_stack (s : State) (x : RegIx) (b : Byte) : (s.setV x b).stack = s.stack := rfl
@[simp] theorem State.setV_dt (s : State) (x : RegIx) (b : Byte) : (s.setV x b).dt = s.dt := rfl
@[simp] theorem State.setV_st (s : State) (x : RegIx) (b : Byte) : (s.setV x b).st = s.st := rfl
@[simp] theorem State.setV_mem (s : State) (x : RegIx) (b : Byte) : (s.setV x b).mem = s.mem := rfl
@[simp] theorem State.setV_fb (s : State) (x : RegIx) (b : Byte) : (s.setV x b).fb = s.fb := rfl
@[simp] theorem State.setV_keys (s : State) (x : RegIx) (b : Byte) : (s.setV x b).keys = s.keys := rfl
@[simp] theorem State.setV_status (s : State) (x : RegIx) (b : Byte) : (s.setV x b).status = s.status := rfl
@[simp] theorem State.setV_fault (s : State) (x : RegIx) (b : Byte) : (s.setV x b).fault = s.fault := rfl
@[simp] theorem State.setV_policy (s : State) (x : RegIx) (b : Byte) : (s.setV x b).policy = s.policy := rfl
@[simp] theorem State.setV_font (s : State) (x : RegIx) (b : Byte) : (s.setV x b).font = s.font := rfl
@[simp] theorem State.setV_phase (s : State) (x : RegIx) (b : Byte) : (s.setV x b).phase = s.phase := rfl
@[simp] theorem State.setV_calls (s : State) (x : RegIx) (b : Byte) : (s.setV x b).calls = s.calls := rfl
@[simp] theorem State.setV_draws (s : State) (x : RegIx) (b : Byte) : (s.setV x b).draws = s.draws := rfl
@[simp] theorem State.setV_events (s : State) (x : RegIx) (b : Byte) : (s.setV x b).events = s.events := rfl

/-! ### setVList -/

@[simp] theorem State.setVList_v (s : State) (bs : List Byte) : (s.setVList bs).v = Vector.ofFn fun r : RegIx => bs.getD r.val s.v[r.val] := rfl
@[simp] theorem State.setVList_i (s : State) (bs : List Byte) : (s.setVList bs).i = s.i := rfl
@[simp] theorem State.setVList_pc (s : State) (bs : List Byte) : (s.setVList bs).pc = s.pc := rfl
@[simp] theorem State.setVList_sp (s : State) (bs : List Byte) : (s.setVList bs).sp = s.sp := rfl
@[simp] theorem State.setVList_stack (s : State) (bs : List Byte) : (s.setVList bs).stack = s.stack := rfl
@[simp] theorem State.setVList_dt (s : State) (bs : List Byte) : (s.setVList bs).dt = s.dt := rfl
@[simp] theorem State.setVList_st (s : State) (bs : List Byte) : (s.setVList bs).st = s.st := rfl
@[simp] theorem State.setVList_mem (s : State) (bs : List Byte) : (s.setVList bs).mem = s.mem := rfl
@[simp] theorem State.setVList_fb (s : State) (bs : List Byte) : (s.setVList bs).fb = s.fb := rfl
@[simp] theorem State.setVList_keys (s : State) (bs : List Byte) : (s.setVList bs).keys = s.keys := rfl
@[simp] theorem State.setVList_status (s : State) (bs : List Byte) : (s.setVList bs).status = s.status := rfl
@[simp] theorem State.setVList_fault (s : State) (bs : List Byte) : (s.setVList bs).fault = s.fault := rfl
@[simp] theorem State.setVList_policy (s : State) (bs : List Byte) : (s.setVList bs).policy = s.policy := rfl
@[simp] theorem State.setVList_font (s : State) (bs : List Byte) : (s.setVList bs).font = s.font := rfl
@[simp] theorem State.setVList_phase (s : State) (bs : List Byte) : (s.setVList bs).phase = s.phase := rfl
@[simp] theorem State.setVList_calls (s : State) (bs : List Byte) : (s.setVList bs).calls = s.calls := rfl
@[simp] theorem State.setVList_draws (s : State) (bs : List Byte) : (s.setVList bs).draws = s.draws := rfl
@[simp] theorem State.setVList_events (s : State) (bs : List Byte) : (s.setVList bs).events = s.events := rfl

/-! ### setI -/

@[simp] theorem State.setI_v (s : State) (n : Nat) : (s.setI n).v = s.v := rfl
@[simp] theorem State.setI_i (s : State) (n : Nat) : (s.setI n).i = BitVec.ofNat 12 n := rfl
@[simp] theorem State.setI_pc (s : State) (n : Nat) : (s.setI n).pc = s.pc := rfl
@[simp] theorem State.setI_sp (s : State) (n : Nat) : (s.setI n).sp = s.sp := rfl
@[simp] theorem State.setI_stack (s : State) (n : Nat) : (s.setI n).stack = s.stack := rfl
@[simp] theorem State.setI_dt (s : State) (n : Nat) : (s.setI n).dt = s.dt := rfl
@[simp] theorem State.setI_st (s : State) (n : Nat) : (s.setI n).st = s.st := rfl
@[simp] theorem State.setI_mem (s : State) (n : Nat) : (s.setI n).mem = s.mem := rfl
@[simp] theorem State.setI_fb (s : State) (n : Nat) : (s.setI n).fb = s.fb := rfl
@[simp] theorem State.setI_keys (s : State) (n : Nat) : (s.setI n).keys = s.keys := rfl
@[simp] theorem State.setI_status (s : State) (n : Nat) : (s.setI n).status = s.status := rfl
@[simp] theorem State.setI_fault (s : State) (n : Nat) : (s.setI n).fault = s.fault := rfl
@[simp] theorem State.setI_policy (s : State) (n : Nat) : (s.setI n).policy = s.policy := rfl
@[simp] theorem State.setI_font (s : State) (n : Nat) : (s.setI n).font = s.font := rfl
@[simp] theorem State.setI_phase (s : State) (n : Nat) : (s.setI n).phase = s.phase := rfl
@[simp] theorem State.setI_calls (s : State) (n : Nat) : (s.setI n).calls = s.calls := rfl
@[simp] theorem State.setI_draws (s : State) (n : Nat) : (s.setI n).draws = s.draws := rfl
@[simp] theorem State.setI_events (s : State) (n : Nat) : (s.setI n).events = s.events := rfl

/-! ### setPc -/

@[simp] theorem State.setPc_v (s : State) (n : Nat) : (s.setPc n).v = s.v := rfl
@[simp] theorem State.setPc_i (s : State) (n : Nat) : (s.setPc n).i = s.i := rfl
@[simp] theorem State.setPc_pc (s : State) (n : Nat) : (s.setPc n).pc = BitVec.ofNat 16 n := rfl
@[simp] theorem State.setPc_sp (s : State) (n : Nat) : (s.setPc n).sp = s.sp := rfl
@[simp] theorem State.setPc_stack (s : State) (n : Nat) : (s.setPc n).stack = s.stack := rfl
@[simp] theorem State.setPc_dt (s : State) (n : Nat) : (s.setPc n).dt = s.dt := rfl
@[simp] theorem State.setPc_st (s : State) (n : Nat) : (s.setPc n).st = s.st := rfl
@[simp] theorem State.setPc_mem (s : State) (n : Nat) : (s.setPc n).mem = s.mem := rfl
@[simp] theorem State.setPc_fb (s : State) (n : Nat) : (s.setPc n).fb = s.fb := rfl
@[simp] theorem State.setPc_keys (s : State) (n : Nat) : (s.setPc n).keys = s.keys := rfl
@[simp] theorem State.setPc_status (s : State) (n : Nat) : (s.setPc n).status = s.status := rfl
@[simp] theorem State.setPc_fault (s : State) (n : Nat) : (s.setPc n).fault = s.fault := rfl
@[simp] theorem State.setPc_policy (s : State) (n : Nat) : (s.setPc n).policy = s.policy := rfl
@[simp] theorem State.setPc_font (s : State) (n : Nat) : (s.setPc n).font = s.font := rfl
@[simp] theorem State.setPc_phase (s : State) (n : Nat) : (s.setPc n).phase = s.phase := rfl
@[simp] theorem State.setPc_calls (s : State) (n : Nat) : (s.setPc n).calls = s.calls := rfl
@[simp] theorem State.setPc_draws (s : State) (n : Nat) : (s.setPc n).draws = s.draws := rfl
@[simp] theorem State.setPc_events (s : State) (n : Nat) : (s.setPc n).events = s.events := rfl

/-! ### advance -/

@[simp] theorem State.advance_v (s : State) : (s.advance).v = s.v := rfl
@[simp] theorem State.advance_i (s : State) : (s.advance).i = s.i := rfl
@[simp] theorem State.advance_pc (s : State) : (s.advance).pc = BitVec.ofNat 16 (s.pc.toNat + 2) := rfl
@[simp] theorem State.advance_sp (s : State) : (s.advance).sp = s.sp := rfl
@[simp] theorem State.advance_stack (s : State) : (s.advance).stack = s.stack := rfl
@[simp] theorem State.advance_dt (s : State) : (s.advance).dt = s.dt := rfl
@[simp] theorem State.advance_st (s : State) : (s.advance).st = s.st := rfl
@[simp] theorem State.advance_mem (s : State) : (s.advance).mem = s.mem := rfl
@[simp] theorem State.advance_fb (s : State) : (s.advance).fb = s.fb := rfl
@[simp] theorem State.advance_keys (s : State) : (s.advance).keys = s.keys := rfl
@[simp] theorem State.advance_status (s : State) : (s.advance).status = s.status := rfl
@[simp] theorem State.advance_fault (s : State) : (s.advance).fault = s.fault := rfl
@[simp] theorem State.advance_policy (s : State) : (s.advance).policy = s.policy := rfl
@[simp] theorem State.advance_font (s : State) : (s.advance).font = s.font := rfl
@[simp] theorem State.advance_phase (s : State) : (s.advance).phase = s.phase := rfl
@[simp] theorem State.advance_calls (s : State) : (s.advance).calls = s.calls := rfl
@[simp] theorem State.advance_draws (s : State) : (s.advance).draws = s.draws := rfl
@[simp] theorem State.advance_events (s : State) : (s.advance).events = s.events := rfl

/-! ### setDt -/

@[simp] theorem State.setDt_v (s : State) (b : Byte) : (s.setDt b).v = s.v := rfl
@[simp] theorem State.setDt_i (s : State) (b : Byte) : (s.setDt b).i = s.i := rfl
@[simp] theorem State.setDt_pc (s : State) (b : Byte) : (s.setDt b).pc = s.pc := rfl
@[simp] theorem State.setDt_sp (s : State) (b : Byte) : (s.setDt b).sp = s.sp := rfl
@[simp] theorem State.setDt_stack (s : State) (b : Byte) : (s.setDt b).stack = s.stack := rfl
@[simp] theorem State.setDt_dt (s : State) (b : Byte) : (s.setDt b).dt = b := rfl
@[simp] theorem State.setDt_st (s : State) (b : Byte) : (s.setDt b).st = s.st := rfl
@[simp] theorem State.setDt_mem (s : State) (b : Byte) : (s.setDt b).mem = s.mem := rfl
@[simp] theorem State.setDt_fb (s : State) (b : Byte) : (s.setDt b).fb = s.fb := rfl
@[simp] theorem State.setDt_keys (s : State) (b : Byte) : (s.setDt b).keys = s.keys := rfl
@[simp] theorem State.setDt_status (s : State) (b : Byte) : (s.setDt b).status = s.status := rfl
@[simp] theorem State.setDt_fault (s : State) (b : Byte) : (s.setDt b).fault = s.fault := rfl
@[simp] theorem State.setDt_policy (s : State) (b : Byte) : (s.setDt b).policy = s.policy := rfl
@[simp] theorem State.setDt_font (s : State) (b : Byte) : (s.setDt b).font = s.font := rfl
@[simp] theorem State.setDt_phase (s : State) (b : Byte) : (s.setDt b).phase = s.phase := rfl
@[simp] theorem State.setDt_calls (s : State) (b : Byte) : (s.setDt b).calls = s.calls := rfl
@[simp] theorem State.setDt_draws (s : State) (b : Byte) : (s.setDt b).draws = s.draws := rfl
@[simp] theorem State.setDt_events (s : State) (b : Byte) : (s.setDt b).events = s.events := rfl

/-! ### setSt -/

@[simp] theorem State.setSt_v (s : State) (b : Byte) : (s.setSt b).v = s.v := rfl
@[simp] theorem State.setSt_i (s : State) (b : Byte) : (s.setSt b).i = s.i := rfl
@[simp] theorem State.setSt_pc (s : State) (b : Byte) : (s.setSt b).pc = s.pc := rfl
@[simp] theorem State.setSt_sp (s : State) (b : Byte) : (s.setSt b).sp = s.sp := rfl
@[simp] theorem State.setSt_stack (s : State) (b : Byte) : (s.setSt b).stack = s.stack := rfl
@[simp] theorem State.setSt_dt (s : State) (b : Byte) : (s.setSt b).dt = s.dt := rfl
@[simp] theorem State.setSt_st (s : State) (b : Byte) : (s.setSt b).st = b := rfl
@[simp] theorem State.setSt_mem (s : State) (b : Byte) : (s.setSt b).mem = s.mem := rfl
@[simp] theorem State.setSt_fb (s : State) (b : Byte) : (s.setSt b).fb = s.fb := rfl
@[simp] theorem State.setSt_keys (s : State) (b : Byte) : (s.setSt b).keys = s.keys := rfl
@[simp] theorem State.setSt_status (s : State) (b : Byte) : (s.setSt b).status = s.status := rfl
@[simp] theorem State.setSt_fault (s : State) (b : Byte) : (s.setSt b).fault = s.fault := rfl
@[simp] theorem State.setSt_policy (s : State) (b : Byte) : (s.setSt b).policy = s.policy := rfl
@[simp] theorem State.setSt_font (s : State) (b : Byte) : (s.setSt b).font = s.font := rfl
@[simp] theorem State.setSt_phase (s : State) (b : Byte) : (s.setSt b).phase = s.phase := rfl
@[simp] theorem State.setSt_calls (s : State) (b : Byte) : (s.setSt b).calls = s.calls := rfl
@[simp] theorem State.setSt_draws (s : State) (b : Byte) : (s.setSt b).draws = s.draws := rfl
@[simp] theorem State.setSt_events (s : State) (b : Byte) : (s.setSt b).events = s.events := rfl

/-! ### setMem -/

@[simp] theorem State.setMem_v (s : State) (m : Memory) : (s.setMem m).v = s.v := rfl
@[simp] theorem State.setMem_i (s : State) (m : Memory) : (s.setMem m).i = s.i := rfl
@[simp] theorem State.setMem_pc (s : State) (m : Memory) : (s.setMem m).pc = s.pc := rfl
@[simp] theorem State.setMem_sp (s : State) (m : Memory) : (s.setMem m).sp = s.sp := rfl
@[simp] theorem State.setMem_stack (s : State) (m : Memory) : (s.setMem m).stack = s.stack := rfl
@[simp] theorem State.setMem_dt (s : State) (m : Memory) : (s.setMem m).dt = s.dt := rfl
@[simp] theorem State.setMem_st (s : State) (m : Memory) : (s.setMem m).st = s.st := rfl
@[simp] theorem State.setMem_mem (s : State) (m : Memory) : (s.setMem m).mem = m := rfl
@[simp] theorem State.setMem_fb (s : State) (m : Memory) : (s.setMem m).fb = s.fb := rfl
@[simp] theorem State.setMem_keys (s : State) (m : Memory) : (s.setMem m).keys = s.keys := rfl
@[simp] theorem State.setMem_status (s : State) (m : Memory) : (s.setMem m).status = s.status := rfl
@[simp] theorem State.setMem_fault (s : State) (m : Memory) : (s.setMem m).fault = s.fault := rfl
@[simp] theorem State.setMem_policy (s : State) (m : Memory) : (s.setMem m).policy = s.policy := rfl
@[simp] theorem State.setMem_font (s : State) (m : Memory) : (s.setMem m).font = s.font := rfl
@[simp] theorem State.setMem_phase (s : State) (m : Memory) : (s.setMem m).phase = s.phase := rfl
@[simp] theorem State.setMem_calls (s : State) (m : Memory) : (s.setMem m).calls = s.calls := rfl
@[simp] theorem State.setMem_draws (s : State) (m : Memory) : (s.setMem m).draws = s.draws := rfl
@[simp] theorem State.setMem_events (s : State) (m : Memory) : (s.setMem m).events = s.events := rfl

/-! ### setFb -/

@[simp] theorem State.setFb_v (s : State) (f : Frame) : (s.setFb f).v = s.v := rfl
@[simp] theorem State.setFb_i (s : State) (f : Frame) : (s.setFb f).i = s.i := rfl
@[simp] theorem State.setFb_pc (s : State) (f : Frame) : (s.setFb f).pc = s.pc := rfl
@[simp] theorem State.setFb_sp (s : State) (f : Frame) : (s.setFb f).sp = s.sp := rfl
@[simp] theorem State.setFb_stack (s : State) (f : Frame) : (s.setFb f).stack = s.stack := rfl
@[simp] theorem State.setFb_dt (s : State) (f : Frame) : (s.setFb f).dt = s.dt := rfl
@[simp] theorem State.setFb_st (s : State) (f : Frame) : (s.setFb f).st = s.st := rfl
@[simp] theorem State.setFb_mem (s : State) (f : Frame) : (s.setFb f).mem = s.mem := rfl
@[simp] theorem State.setFb_fb (s : State) (f : Frame) : (s.setFb f).fb = f := rfl
@[simp] theorem State.setFb_keys (s : State) (f : Frame) : (s.setFb f).keys = s.keys := rfl
@[simp] theorem State.setFb_status (s : State) (f : Frame) : (s.setFb f).status = s.status := rfl
@[simp] theorem State.setFb_fault (s : State) (f : Frame) : (s.setFb f).fault = s.fault := rfl
@[simp] theorem State.setFb_policy (s : State) (f : Frame) : (s.setFb f).policy = s.policy := rfl
@[simp] theorem State.setFb_font (s : State) (f : Frame) : (s.setFb f).font = s.font := rfl
@[simp] theorem State.setFb_phase (s : State) (f : Frame) : (s.setFb f).phase = s.phase := rfl
@[simp] theorem State.setFb_calls (s : State) (f : Frame) : (s.setFb f).calls = s.calls := rfl
@[simp] theorem State.setFb_draws (s : State) (f : Frame) : (s.setFb f).draws = s.draws := rfl
@[simp] theorem State.setFb_events (s : State) (f : Frame) : (s.setFb f).events = s.events := rfl

/-! ### emit -/

@[simp] theorem State.emit_v (s : State) (e : Event) : (s.emit e).v = s.v := rfl
@[simp] theorem State.emit_i (s : State) (e : Event) : (s.emit e).i = s.i := rfl
@[simp] theorem State.emit_pc (s : State) (e : Event) : (s.emit e).pc = s.pc := rfl
@[simp] theorem State.emit_sp (s : State) (e : Event) : (s.emit e).sp = s.sp := rfl
@[simp] theorem State.emit_stack (s : State) (e : Event) : (s.emit e).stack = s.stack := rfl
@[simp] theorem State.emit_dt (s : State) (e : Event) : (s.emit e).dt = s.dt := rfl
@[simp] theorem State.emit_st (s : State) (e : Event) : (s.emit e).st = s.st := rfl
@[simp] theorem State.emit_mem (s : State) (e : Event) : (s.emit e).mem = s.mem := rfl
@[simp] theorem State.emit_fb (s : State) (e : Event) : (s.emit e).fb = s.fb := rfl
@[simp] theorem State.emit_keys (s : State) (e : Event) : (s.emit e).keys = s.keys := rfl
@[simp] theorem State.emit_status (s : State) (e : Event) : (s.emit e).status = s.status := rfl
@[simp] theorem State.emit_fault (s : State) (e : Event) : (s.emit e).fault = s.fault := rfl
@[simp] theorem State.emit_policy (s : State) (e : Event) : (s.emit e).policy = s.policy := rfl
@[simp] theorem State.emit_font (s : State) (e : Event) : (s.emit e).font = s.font := rfl
@[simp] theorem State.emit_phase (s : State) (e : Event) : (s.emit e).phase = s.phase := rfl
@[simp] theorem State.emit_calls (s : State) (e : Event) : (s.emit e).calls = s.calls := rfl
@[simp] theorem State.emit_draws (s : State) (e : Event) : (s.emit e).draws = s.draws := rfl
@[simp] theorem State.emit_events (s : State) (e : Event) : (s.emit e).events = s.events ++ [e] := rfl

/-! ### emitFrame -/

@[simp] theorem State.emitFrame_v (s : State) : (s.emitFrame).v = s.v := rfl
@[simp] theorem State.emitFrame_i (s : State) : (s.emitFrame).i = s.i := rfl
@[simp] theorem State.emitFrame_pc (s : State) : (s.emitFrame).pc = s.pc := rfl
@[simp] theorem State.emitFrame_sp (s : State) : (s.emitFrame).sp = s.sp := rfl
@[simp] theorem State.emitFrame_stack (s : State) : (s.emitFrame).stack = s.stack := rfl
@[simp] theorem State.emitFrame_dt (s : State) : (s.emitFrame).dt = s.dt := rfl
@[simp] theorem State.emitFrame_st (s : State) : (s.emitFrame).st = s.st := rfl
@[simp] theorem State.emitFrame_mem (s : State) : (s.emitFrame).mem = s.mem := rfl
@[simp] theorem State.emitFrame_fb (s : State) : (s.emitFrame).fb = s.fb := rfl
@[simp] theorem State.emitFrame_keys (s : State) : (s.emitFrame).keys = s.keys := rfl
@[simp] theorem State.emitFrame_status (s : State) : (s.emitFrame).status = s.status := rfl
@[simp] theorem State.emitFrame_fault (s : State) : (s.emitFrame).fault = s.fault := rfl
@[simp] theorem State.emitFrame_policy (s : State) : (s.emitFrame).policy = s.policy := rfl
@[simp] theorem State.emitFrame_font (s : State) : (s.emitFrame).font = s.font := rfl
@[simp] theorem State.emitFrame_phase (s : State) : (s.emitFrame).phase = s.phase := rfl
@[simp] theorem State.emitFrame_calls (s : State) : (s.emitFrame).calls = s.calls := rfl
@[simp] theorem State.emitFrame_draws (s : State) : (s.emitFrame).draws = s.draws := rfl
@[simp] theorem State.emitFrame_events (s : State) : (s.emitFrame).events = s.events ++ [.frameUpdated s.fb] := rfl

/-! ### setFlag -/

@[simp] theorem State.setFlag_v (s : State) (b : Bool) : (s.setFlag b).v = s.v.set 15 (flagByte b) := rfl
@[simp] theorem State.setFlag_i (s : State) (b : Bool) : (s.setFlag b).i = s.i := rfl
@[simp] theorem State.setFlag_pc (s : State) (b : Bool) : (s.setFlag b).pc = s.pc := rfl
@[simp] theorem State.setFlag_sp (s : State) (b : Bool) : (s.setFlag b).sp = s.sp := rfl
@[simp] theorem State.setFlag_stack (s : State) (b : Bool) : (s.setFlag b).stack = s.stack := rfl
@[simp] theorem State.setFlag_dt (s : State) (b : Bool) : (s.setFlag b).dt = s.dt := rfl
@[simp] theorem State.setFlag_st (s : State) (b : Bool) : (s.setFlag b).st = s.st := rfl
@[simp] theorem State.setFlag_mem (s : State) (b : Bool) : (s.setFlag b).mem = s.mem := rfl
@[simp] theorem State.setFlag_fb (s : State) (b : Bool) : (s.setFlag b).fb = s.fb := rfl
@[simp] theorem State.setFlag_keys (s : State) (b : Bool) : (s.setFlag b).keys = s.keys := rfl
@[simp] theorem State.setFlag_status (s : State) (b : Bool) : (s.setFlag b).status = s.status := rfl
@[simp] theorem State.setFlag_fault (s : State) (b : Bool) : (s.setFlag b).fault = s.fault := rfl
@[simp] theorem State.setFlag_policy (s : State) (b : Bool) : (s.setFlag b).policy = s.policy := rfl
@[simp] theorem State.setFlag_font (s : State) (b : Bool) : (s.setFlag b).font = s.font := rfl
@[simp] theorem State.setFlag_phase (s : State) (b : Bool) : (s.setFlag b).phase = s.phase := rfl
@[simp] theorem State.setFlag_calls (s : State) (b : Bool) : (s.setFlag b).calls = s.calls := rfl
@[simp] theorem State.setFlag_draws (s : State) (b : Bool) : (s.setFlag b).draws = s.draws := rfl
@[simp] theorem State.setFlag_events (s : State) (b : Bool) : (s.setFlag b).events = s.events := rfl

/-! ### enterFault, tickTimers, endTick -/

@[simp] theorem enterFault_v (s : State) (w : Option Word) (r : Raised) : (enterFault s w r).v = s.v := rfl
@[simp] theorem enterFault_i (s : State) (w : Option Word) (r : Raised) : (enterFault s w r).i = s.i := rfl
@[simp] theorem enterFault_pc (s : State) (w : Option Word) (r : Raised) : (enterFault s w r).pc = s.pc := rfl
@[simp] theorem enterFault_sp (s : State) (w : Option Word) (r : Raised) : (enterFault s w r).sp = s.sp := rfl
@[simp] theorem enterFault_stack (s : State) (w : Option Word) (r : Raised) : (enterFault s w r).stack = s.stack := rfl
@[simp] theorem enterFault_dt (s : State) (w : Option Word) (r : Raised) : (enterFault s w r).dt = s.dt := rfl
@[simp] theorem enterFault_st (s : State) (w : Option Word) (r : Raised) : (enterFault s w r).st = s.st := rfl
@[simp] theorem enterFault_mem (s : State) (w : Option Word) (r : Raised) : (enterFault s w r).mem = s.mem := rfl
@[simp] theorem enterFault_fb (s : State) (w : Option Word) (r : Raised) : (enterFault s w r).fb = s.fb := rfl
@[simp] theorem enterFault_keys (s : State) (w : Option Word) (r : Raised) : (enterFault s w r).keys = s.keys := rfl
@[simp] theorem enterFault_status (s : State) (w : Option Word) (r : Raised) : (enterFault s w r).status = .halted := rfl
@[simp] theorem enterFault_fault (s : State) (w : Option Word) (r : Raised) : (enterFault s w r).fault = some ⟨r.code, some s.pc, w, r.info⟩ := rfl
@[simp] theorem enterFault_policy (s : State) (w : Option Word) (r : Raised) : (enterFault s w r).policy = s.policy := rfl
@[simp] theorem enterFault_font (s : State) (w : Option Word) (r : Raised) : (enterFault s w r).font = s.font := rfl
@[simp] theorem enterFault_phase (s : State) (w : Option Word) (r : Raised) : (enterFault s w r).phase = .boundary := rfl
@[simp] theorem enterFault_calls (s : State) (w : Option Word) (r : Raised) : (enterFault s w r).calls = s.calls := rfl
@[simp] theorem enterFault_draws (s : State) (w : Option Word) (r : Raised) : (enterFault s w r).draws = s.draws := rfl
@[simp] theorem enterFault_events (s : State) (w : Option Word) (r : Raised) : (enterFault s w r).events = s.events := rfl

@[simp] theorem endTick_v (s : State) : (endTick s).v = s.v := rfl
@[simp] theorem endTick_i (s : State) : (endTick s).i = s.i := rfl
@[simp] theorem endTick_pc (s : State) : (endTick s).pc = s.pc := rfl
@[simp] theorem endTick_sp (s : State) : (endTick s).sp = s.sp := rfl
@[simp] theorem endTick_stack (s : State) : (endTick s).stack = s.stack := rfl
@[simp] theorem endTick_dt (s : State) : (endTick s).dt = countDown s.dt := rfl
@[simp] theorem endTick_st (s : State) : (endTick s).st = countDown s.st := rfl
@[simp] theorem endTick_mem (s : State) : (endTick s).mem = s.mem := rfl
@[simp] theorem endTick_fb (s : State) : (endTick s).fb = s.fb := rfl
@[simp] theorem endTick_keys (s : State) : (endTick s).keys = s.keys := rfl
@[simp] theorem endTick_status (s : State) : (endTick s).status = s.status := rfl
@[simp] theorem endTick_fault (s : State) : (endTick s).fault = s.fault := rfl
@[simp] theorem endTick_policy (s : State) : (endTick s).policy = s.policy := rfl
@[simp] theorem endTick_font (s : State) : (endTick s).font = s.font := rfl
@[simp] theorem endTick_phase (s : State) : (endTick s).phase = .boundary := rfl
@[simp] theorem endTick_calls (s : State) : (endTick s).calls = s.calls := rfl
@[simp] theorem endTick_draws (s : State) : (endTick s).draws = s.draws := rfl
@[simp] theorem endTick_events (s : State) : (endTick s).events = s.events := rfl

/-! ### Registers -/

/-- A register reads the register file at its number. -/
theorem State.reg_eq (s : State) (x : RegIx) : s.reg x = s.v[x.val] := rfl

@[simp] theorem State.reg_setV_self (s : State) (x : RegIx) (b : Byte) : (s.setV x b).reg x = b := by
  simp [State.reg_eq]

@[simp] theorem State.reg_setV_of_ne (s : State) (b : Byte) {x y : RegIx} (h : y ≠ x) :
    (s.setV x b).reg y = s.reg y := by
  have hn : x.val ≠ y.val := fun e => h (Fin.ext e.symm)
  simp [State.reg_eq, hn]

/-- What every register reads after one is written. -/
theorem State.reg_setV (s : State) (x y : RegIx) (b : Byte) :
    (s.setV x b).reg y = if y = x then b else s.reg y := by
  split
  · next h => subst h; simp
  · next h => simp [h]

/-- What every register reads after V0, V1, ... are loaded from a list. -/
theorem State.reg_setVList (s : State) (bs : List Byte) (y : RegIx) :
    (s.setVList bs).reg y = bs.getD y.val (s.reg y) := by
  simp [State.reg_eq]

/-- Writing the flag is writing VF. -/
theorem State.setFlag_eq (s : State) (b : Bool) : s.setFlag b = s.setV regF (flagByte b) := rfl

/-- An update that leaves the register file alone leaves every register alone. -/
theorem State.reg_congr {s t : State} (h : t.v = s.v) (x : RegIx) : t.reg x = s.reg x := by
  simp [State.reg_eq, h]

@[simp] theorem State.reg_advance (s : State) (x : RegIx) : s.advance.reg x = s.reg x := rfl

/-- The advance adds 2 to PC. -/
theorem State.advance_pc_add (s : State) : s.advance.pc = s.pc + 2#16 := by
  rw [State.advance_pc, BitVec.ofNat_add, BitVec.ofNat_toNat, BitVec.setWidth_eq]

/-- A skip taken or not, and nothing else. -/
theorem State.skipIf_eq (s : State) (c : Bool) : s.skipIf c = if c = true then s.advance else s := rfl

end Sys2Proof.Machine
end

