-- ==== Sys2Proof/Laws/Ops.lean ====
section
/-! SUPPORT. One lemma for each shared operation, saying once everything it can do. -/

namespace Sys2Proof.Machine

/-! ### The stack (10_state.md R42, R43) -/

/-- A push onto a stack that is not full. -/
theorem push_ok {a : Word} {s : State} (h : s.sp.val < 16) :
    push a s = .ok { s with stack := s.stack.set s.sp.val a, sp := ⟨s.sp.val + 1, by omega⟩ } := by
  simp [push, h]

/-- A push onto a full stack. -/
theorem push_full {a : Word} {s : State} (h : s.sp.val = 16) : push a s = .error ⟨.stackOverflow, 16⟩ := by
  simp [push, h]

/-- A pop from a stack that is not empty. -/
theorem pop_ok {s : State} (h : s.sp.val ≠ 0) :
    pop s = .ok (s.stack[s.sp.val - 1], { s with sp := ⟨s.sp.val - 1, by omega⟩ }) := by
  simp only [pop, h, if_false]

/-- A pop from an empty stack. -/
theorem pop_empty {s : State} (h : s.sp.val = 0) : pop s = .error ⟨.stackUnderflow, 0⟩ := by
  simp [pop, h]

/-! ### The bus (20_memory.md R72, R73, R76) -/

/-- A data read that answers a byte: in range, or out of range under `Permissive`. -/
theorem memRead_ok {a : Nat} {s t : State} {b : Byte} (h : memRead a s = .ok (b, t)) :
    (a ≤ 0xFFF ∧ b = s.mem.read a ∧ t = s) ∨
      (0xFFF < a ∧ s.policy = .permissive ∧ b = 0 ∧ t = s.emit (.boundsIgnored a)) := by
  unfold memRead at h
  split at h
  · next ha => cases h; exact .inl ⟨ha, rfl, rfl⟩
  · next ha =>
    split at h
    · cases h
    · next hp => cases h; exact .inr ⟨Nat.not_le.mp ha, hp, rfl, rfl⟩

/-- A data read that raises. -/
theorem memRead_error {a : Nat} {s : State} {r : Raised} (h : memRead a s = .error r) :
    0xFFF < a ∧ s.policy = .halt ∧ r = ⟨.memoryBounds, a⟩ := by
  unfold memRead at h
  split at h
  · cases h
  · next ha =>
    split at h
    · next hp => cases h; exact ⟨Nat.not_le.mp ha, hp, rfl⟩
    · cases h

/-- A data write that goes on: in range, or dropped under `Permissive`. -/
theorem memWrite_ok {a : Nat} {v : Byte} {s t : State} (h : memWrite a v s = .ok t) :
    (a ≤ 0xFFF ∧ t = s.setMem (s.mem.write a v)) ∨
      (0xFFF < a ∧ s.policy = .permissive ∧ t = s.emit (.boundsIgnored a)) := by
  unfold memWrite at h
  split at h
  · next ha => cases h; exact .inl ⟨ha, rfl⟩
  · next ha =>
    split at h
    · cases h
    · next hp => cases h; exact .inr ⟨Nat.not_le.mp ha, hp, rfl⟩

/-- A data write that raises. -/
theorem memWrite_error {a : Nat} {v : Byte} {s : State} {r : Raised} (h : memWrite a v s = .error r) :
    0xFFF < a ∧ s.policy = .halt ∧ r = ⟨.memoryBounds, a⟩ := by
  unfold memWrite at h
  split at h
  · cases h
  · next ha =>
    split at h
    · next hp => cases h; exact ⟨Nat.not_le.mp ha, hp, rfl⟩
    · cases h

/-- What a data read at an address gives where it does not fault. -/
def busByte (s : State) (a : Nat) : Byte := if a ≤ 0xFFF then s.mem.read a else 0

/-- The events of `n` data accesses from an address on. -/
def ignoredFrom (a n : Nat) : List Event :=
  ((List.range n).filter fun k => decide (0xFFF < a + k)).map fun k => .boundsIgnored (a + k)

theorem ignoredFrom_succ (a n : Nat) :
    ignoredFrom a (n + 1) = (if 0xFFF < a then [.boundsIgnored a] else []) ++ ignoredFrom (a + 1) n := by
  have e : ∀ k, a + 1 + k = a + (k + 1) := fun k => by omega
  by_cases h : 0xFFF < a
  · simp [ignoredFrom, List.range_succ_eq_map, List.filter_map, Function.comp_def, e, h]
  · simp [ignoredFrom, List.range_succ_eq_map, List.filter_map, Function.comp_def, e, h]

/-- Data reads at rising addresses that all go on: the bytes, and the events of the addresses above 0xFFF. -/
theorem readBytes_ok {a n : Nat} {s : State} (h : a + n ≤ 0x1000 ∨ s.policy = .permissive) :
    readBytes a n s =
      .ok ((List.range n).map fun k => busByte s (a + k), { s with events := s.events ++ ignoredFrom a n }) := by
  induction n generalizing a s with
  | zero => simp [readBytes, ignoredFrom]
  | succ n ih =>
    have e : ∀ k, a + 1 + k = a + (k + 1) := fun k => by omega
    have hb : ∀ (u : State), u.mem = s.mem → ∀ k, busByte u k = busByte s k := fun u hu k => by simp [busByte, hu]
    rw [readBytes, ignoredFrom_succ, List.range_succ_eq_map]
    by_cases ha : a ≤ 0xFFF
    · have h1 : memRead a s = .ok (busByte s a, s) := by simp [memRead, busByte, ha, Config.lastAddr]
      rw [h1]
      simp only
      rw [ih (h.imp_left fun h => by omega)]
      simp [Function.comp_def, e, Nat.not_lt.mpr ha]
    · have hp : s.policy = .permissive := by
        rcases h with h | h
        · omega
        · exact h
      have h1 : memRead a s = .ok (busByte s a, s.emit (.boundsIgnored a)) := by
        simp [memRead, busByte, ha, Config.lastAddr, hp]
      rw [h1]
      simp only
      rw [ih (.inr (by simpa using hp))]
      simp [Function.comp_def, e, Nat.not_le.mp ha, State.emit, hb]

/-- Data reads that reach an address above 0xFFF under `Halt` raise at the first such address. -/
theorem readBytes_error {a n : Nat} {s : State} (hs : a ≤ 0x1000) (h : 0x1000 < a + n) (hp : s.policy = .halt) :
    readBytes a n s = .error ⟨.memoryBounds, 0x1000⟩ := by
  induction n generalizing a with
  | zero => omega
  | succ n ih =>
    rw [readBytes]
    by_cases ha : a ≤ 0xFFF
    · have h1 : memRead a s = .ok (s.mem.read a, s) := by simp [memRead, ha, Config.lastAddr]
      rw [h1]
      simp only
      rw [ih (by omega) (by omega)]
    · have hae : a = 0x1000 := by omega
      subst hae
      simp [memRead, Config.lastAddr, hp]

/-- Data writes at rising addresses that all go on: the bytes up to 0xFFF stored, the others dropped with an event each. -/
theorem writeBytes_ok {a : Nat} {bs : List Byte} {s : State}
    (h : a + bs.length ≤ 0x1000 ∨ s.policy = .permissive) :
    writeBytes a bs s = .ok { s with
      mem := s.mem.writeList a (bs.take (0x1000 - a))
      events := s.events ++ ignoredFrom a bs.length } := by
  induction bs generalizing a s with
  | nil => simp [writeBytes, Memory.writeList, ignoredFrom]
  | cons b bs ih =>
    rw [writeBytes, List.length_cons, ignoredFrom_succ]
    by_cases ha : a ≤ 0xFFF
    · have h1 : memWrite a b s = .ok (s.setMem (s.mem.write a b)) := by simp [memWrite, ha, Config.lastAddr]
      have ht : 0x1000 - a = (0x1000 - (a + 1)) + 1 := by omega
      rw [h1]
      simp only
      rw [ih (by simpa only [List.length_cons, State.setMem_policy, Nat.add_assoc, Nat.add_comm 1] using h), ht,
        List.take_succ_cons, Memory.writeList]
      simp [State.setMem, Nat.not_lt.mpr ha]
    · have hp : s.policy = .permissive := by
        rcases h with h | h
        · simp only [List.length_cons] at h; omega
        · exact h
      have h1 : memWrite a b s = .ok (s.emit (.boundsIgnored a)) := by
        simp [memWrite, ha, Config.lastAddr, hp]
      have ht : 0x1000 - a = 0 := by omega
      have ht' : 0x1000 - (a + 1) = 0 := by omega
      rw [h1]
      simp only
      rw [ih (.inr (by simpa using hp)), ht, ht']
      simp [State.emit, Memory.writeList, Nat.not_le.mp ha]

/-- Data writes that reach an address above 0xFFF under `Halt` raise at the first such address. -/
theorem writeBytes_error {a : Nat} {bs : List Byte} {s : State} (hs : a ≤ 0x1000) (h : 0x1000 < a + bs.length)
    (hp : s.policy = .halt) : writeBytes a bs s = .error ⟨.memoryBounds, 0x1000⟩ := by
  induction bs generalizing a s with
  | nil => simp at h; omega
  | cons b bs ih =>
    rw [writeBytes]
    simp only [List.length_cons] at h
    by_cases ha : a ≤ 0xFFF
    · have h1 : memWrite a b s = .ok (s.setMem (s.mem.write a b)) := by simp [memWrite, ha, Config.lastAddr]
      rw [h1]
      simp only
      rw [ih (by omega) (by omega) (by simpa using hp)]
    · have hae : a = 0x1000 := by omega
      subst hae
      simp [memWrite, Config.lastAddr, hp]

/-- A byte read after data writes at rising addresses: what was stored there, or what was there before. -/
theorem read_writeList_take (m : Memory) (a b : Nat) (bs : List Byte) :
    (m.writeList a (bs.take (0x1000 - a))).read b =
      if a ≤ b ∧ b < a + bs.length ∧ b ≤ 0xFFF then bs.getD (b - a) 0 else m.read b := by
  rw [Memory.read_writeList]
  by_cases h : a ≤ b ∧ b < a + (bs.take (0x1000 - a)).length
  · have h' := h
    rw [List.length_take] at h'
    rw [if_pos h, if_pos (by omega)]
    rw [List.getD_eq_getElem?_getD, List.getElem?_take, if_pos (by omega), List.getD_eq_getElem?_getD]
  · have h' := h
    rw [List.length_take] at h'
    rw [if_neg h, if_neg (by omega)]

/-! ### Ending a step (40_pipeline.md R135, 60_exceptions.md R360) -/

/-- Fault entry halts the block on the fault and changes nothing else. -/
theorem enterFault_haltsWith (s : State) (w : Option Word) (r : Raised) :
    HaltsWith s (enterFault s w r) r.code w r.info := by
  refine ⟨rfl, rfl, rfl, ?_⟩
  intro p hp
  cases p <;> first | rfl | (intro a; rfl) | simp at hp

/-- An execute phase always answers a next state: its own, or that of the fault it raised. -/
theorem complete_next {s t : State} {w : Word} {e : Except Raised State} (h : complete s w e = .next t) :
    e = .ok t ∨ ∃ r, e = .error r ∧ t = enterFault s (some w) r := by
  cases e with
  | ok u => left; simpa [complete] using h
  | error r => right; exact ⟨r, rfl, by simpa [complete] using h.symm⟩

/-! ### The framebuffer (44_display.md R292) -/

/-- Every pixel after one is set. -/
theorem Frame.pixel_setPixel (f : Frame) (x x' : Fin 64) (y y' : Fin 32) (b : Bool) :
    (f.setPixel x y b).pixel x' y' = if x' = x ∧ y' = y then b else f.pixel x' y' := by
  unfold Frame.setPixel Frame.pixel
  by_cases hy : y' = y
  · subst hy
    by_cases hx : x' = x
    · subst hx
      cases b <;> simp [x'.isLt]
    · have hv : x.val ≠ x'.val := fun e => hx (Fin.ext e.symm)
      cases b <;> simp [hx, x'.isLt] <;> omega
  · have hv : y.val ≠ y'.val := fun e => hy (Fin.ext e.symm)
    simp [hy, hv]

/-- A plotted pixel is flipped, and every other is kept. -/
theorem Canvas.pixel_plot (c : Canvas) (x x' : Fin 64) (y y' : Fin 32) :
    (c.plot x y).fb.pixel x' y' = if x' = x ∧ y' = y then !c.fb.pixel x y else c.fb.pixel x' y' := by
  unfold Canvas.plot
  split
  · next h => simp [Frame.pixel_setPixel, h]
  · next h => simp [Frame.pixel_setPixel, h]

/-- A plot records a collision exactly when the pixel was on. -/
theorem Canvas.hit_plot (c : Canvas) (x : Fin 64) (y : Fin 32) : (c.plot x y).hit = (c.hit || c.fb.pixel x y) := by
  unfold Canvas.plot
  split
  · next h => simp [h]
  · next h => simp [h]

/-! ### The step (40_pipeline.md R130, R137, R140) -/

/-- An instruction step of a Running block: a fetch fault, an unknown word, or one instruction executed. -/
theorem stepInstr_running {s : State} (h : s.status = .running) :
    (∃ r, fetch s = .error r ∧ stepInstr s = .next (enterFault s none r)) ∨
      (∃ w i, fetch s = .ok w ∧ decode w = .known i ∧ stepInstr s = exec i s) ∨
      (∃ w w', fetch s = .ok w ∧ decode w = .unknown w' ∧ stepInstr s = .next (execUnknown w' s)) := by
  unfold stepInstr
  rw [if_pos h]
  cases hf : fetch s with
  | error r => exact .inl ⟨r, rfl, rfl⟩
  | ok w =>
    cases hd : decode w with
    | known i => exact .inr (.inl ⟨w, i, rfl, hd, by simp [hd]⟩)
    | unknown w' => exact .inr (.inr ⟨w, w', rfl, hd, by simp [hd]⟩)

/-- A step that answers a next state: an instruction step of a Running block, the end of a tick, or a host call served. -/
theorem step_next {s t : State} (h : step s = .next t) :
    (s.phase = .unbounded ∧ s.status = .running ∧ stepInstr s = .next t) ∨
      (∃ n, s.phase = .steps (n + 1) ∧ s.status = .running ∧ stepInstr { s with phase := .steps n } = .next t) ∨
      (s.phase = .steps 0 ∧ t = endTick s) ∨
      (∃ c cs, s.phase = .boundary ∧ s.calls = c :: cs ∧ t = serve c { s with calls := cs }) := by
  have running : ∀ {u : State}, stepInstr u = .next t → u.status = .running := by
    intro u hu
    unfold stepInstr at hu
    by_cases hr : u.status = .running
    · exact hr
    · rw [if_neg hr] at hu; cases hu
  simp only [step, move] at h
  split at h
  · next hp => exact .inl ⟨hp, running h, h⟩
  · next n hp => exact .inr (.inl ⟨n, hp, (running h : _), h⟩)
  · next hp => cases h; exact .inr (.inr (.inl ⟨hp, rfl⟩))
  · next hp =>
    split at h
    · cases h
    · next c cs hc => cases h; exact .inr (.inr (.inr ⟨c, cs, hp, hc, rfl⟩))

end Sys2Proof.Machine
end

