-- ==== Sys2Proof/Laws/PerInstr.lean ====
section
/-! SUPPORT. Statements about every instruction as syntax, one lemma per constructor. -/

namespace Sys2Proof.Laws.TableRow

/-- The encoding of the instruction selects a row of the opcode map (30_encoding.md R104), which is written apart from the
encoder: no field of the encoding spills into the bits that the row fixes. -/
def Statement (i : Instr) : Prop := wellFormedWord (encode i) = true

/-- A word selects a row of the map as soon as one row that is in the map fits it. -/
theorem wellFormedWord_of_row {w : Word} (r : OpcodeRow) (hr : r ∈ opcodeMap) (h : w &&& r.mask = r.pattern) :
    wellFormedWord w = true :=
  List.any_eq_true.mpr ⟨r, hr, by simp [OpcodeRow.selects, h]⟩

theorem and_ones4 (c : BitVec 4) : c &&& 0xF#4 = c := BitVec.and_allOnes

theorem and_ones8 (b : Byte) : b &&& 0xFF#8 = b := BitVec.and_allOnes

/-- A word of the form class, NNN fits the row of its class. -/
theorem packNNN_mask (c : BitVec 4) (nnn : Addr) : packNNN c nnn &&& 0xF000 = c ++ 0#12 := by
  unfold packNNN
  rw [show (0xF000 : Word) = 0xF#4 ++ 0#12 from rfl, BitVec.and_append]
  simp [and_ones4]

/-- A word of the form class, X, NN fits the row of its class. -/
theorem packXNN_mask (c : BitVec 4) (x : RegIx) (nn : Byte) : packXNN c x nn &&& 0xF000 = c ++ 0#12 :=
  packNNN_mask c (regField x ++ nn)

/-- A word of the form class, X, NN fits the row of its class and NN. -/
theorem packXNN_mask_nn (c : BitVec 4) (x : RegIx) (nn : Byte) : packXNN c x nn &&& 0xF0FF = c ++ (0#4 ++ nn) := by
  unfold packXNN
  rw [show (0xF0FF : Word) = 0xF#4 ++ (0#4 ++ 0xFF#8) from rfl, BitVec.and_append, BitVec.and_append]
  simp [and_ones4, and_ones8]

/-- A word of the form class, X, Y, N fits the row of its class. -/
theorem packXYN_mask (c : BitVec 4) (x y : RegIx) (n : BitVec 4) : packXYN c x y n &&& 0xF000 = c ++ 0#12 :=
  packNNN_mask c (regField x ++ (regField y ++ n))

/-- A word of the form class, X, Y, N fits the row of its class and N. -/
theorem packXYN_mask_n (c : BitVec 4) (x y : RegIx) (n : BitVec 4) :
    packXYN c x y n &&& 0xF00F = c ++ (0#4 ++ (0#4 ++ n)) := by
  unfold packXYN
  rw [show (0xF00F : Word) = 0xF#4 ++ (0#4 ++ (0#4 ++ 0xF#4)) from rfl, BitVec.and_append,
    BitVec.and_append, BitVec.and_append]
  simp [and_ones4]

theorem cls : Statement .cls := by unfold Statement; decide
theorem ret : Statement .ret := by unfold Statement; decide
theorem jp (nnn : Addr) : Statement (.jp nnn) :=
  wellFormedWord_of_row ⟨0xF000, 0x1000⟩ (by decide) (packNNN_mask 0x1 nnn)
theorem call (nnn : Addr) : Statement (.call nnn) :=
  wellFormedWord_of_row ⟨0xF000, 0x2000⟩ (by decide) (packNNN_mask 0x2 nnn)
theorem seImm (x : RegIx) (nn : Byte) : Statement (.seImm x nn) :=
  wellFormedWord_of_row ⟨0xF000, 0x3000⟩ (by decide) (packXNN_mask 0x3 x nn)
theorem sneImm (x : RegIx) (nn : Byte) : Statement (.sneImm x nn) :=
  wellFormedWord_of_row ⟨0xF000, 0x4000⟩ (by decide) (packXNN_mask 0x4 x nn)
theorem seReg (x : RegIx) (y : RegIx) : Statement (.seReg x y) :=
  wellFormedWord_of_row ⟨0xF00F, 0x5000⟩ (by decide) (packXYN_mask_n 0x5 x y 0x0)
theorem ldImm (x : RegIx) (nn : Byte) : Statement (.ldImm x nn) :=
  wellFormedWord_of_row ⟨0xF000, 0x6000⟩ (by decide) (packXNN_mask 0x6 x nn)
theorem addImm (x : RegIx) (nn : Byte) : Statement (.addImm x nn) :=
  wellFormedWord_of_row ⟨0xF000, 0x7000⟩ (by decide) (packXNN_mask 0x7 x nn)
theorem ldReg (x : RegIx) (y : RegIx) : Statement (.ldReg x y) :=
  wellFormedWord_of_row ⟨0xF00F, 0x8000⟩ (by decide) (packXYN_mask_n 0x8 x y 0x0)
theorem orReg (x : RegIx) (y : RegIx) : Statement (.orReg x y) :=
  wellFormedWord_of_row ⟨0xF00F, 0x8001⟩ (by decide) (packXYN_mask_n 0x8 x y 0x1)
theorem andReg (x : RegIx) (y : RegIx) : Statement (.andReg x y) :=
  wellFormedWord_of_row ⟨0xF00F, 0x8002⟩ (by decide) (packXYN_mask_n 0x8 x y 0x2)
theorem xorReg (x : RegIx) (y : RegIx) : Statement (.xorReg x y) :=
  wellFormedWord_of_row ⟨0xF00F, 0x8003⟩ (by decide) (packXYN_mask_n 0x8 x y 0x3)
theorem addReg (x : RegIx) (y : RegIx) : Statement (.addReg x y) :=
  wellFormedWord_of_row ⟨0xF00F, 0x8004⟩ (by decide) (packXYN_mask_n 0x8 x y 0x4)
theorem sub (x : RegIx) (y : RegIx) : Statement (.sub x y) :=
  wellFormedWord_of_row ⟨0xF00F, 0x8005⟩ (by decide) (packXYN_mask_n 0x8 x y 0x5)
theorem shr (x : RegIx) (y : RegIx) : Statement (.shr x y) :=
  wellFormedWord_of_row ⟨0xF00F, 0x8006⟩ (by decide) (packXYN_mask_n 0x8 x y 0x6)
theorem subn (x : RegIx) (y : RegIx) : Statement (.subn x y) :=
  wellFormedWord_of_row ⟨0xF00F, 0x8007⟩ (by decide) (packXYN_mask_n 0x8 x y 0x7)
theorem shl (x : RegIx) (y : RegIx) : Statement (.shl x y) :=
  wellFormedWord_of_row ⟨0xF00F, 0x800E⟩ (by decide) (packXYN_mask_n 0x8 x y 0xE)
theorem sneReg (x : RegIx) (y : RegIx) : Statement (.sneReg x y) :=
  wellFormedWord_of_row ⟨0xF00F, 0x9000⟩ (by decide) (packXYN_mask_n 0x9 x y 0x0)
theorem ldI (nnn : Addr) : Statement (.ldI nnn) :=
  wellFormedWord_of_row ⟨0xF000, 0xA000⟩ (by decide) (packNNN_mask 0xA nnn)
theorem jpV0 (nnn : Addr) : Statement (.jpV0 nnn) :=
  wellFormedWord_of_row ⟨0xF000, 0xB000⟩ (by decide) (packNNN_mask 0xB nnn)
theorem rnd (x : RegIx) (nn : Byte) : Statement (.rnd x nn) :=
  wellFormedWord_of_row ⟨0xF000, 0xC000⟩ (by decide) (packXNN_mask 0xC x nn)
theorem drw (x : RegIx) (y : RegIx) (n : BitVec 4) : Statement (.drw x y n) :=
  wellFormedWord_of_row ⟨0xF000, 0xD000⟩ (by decide) (packXYN_mask 0xD x y n)
theorem skp (x : RegIx) : Statement (.skp x) :=
  wellFormedWord_of_row ⟨0xF0FF, 0xE09E⟩ (by decide) (packXNN_mask_nn 0xE x 0x9E)
theorem sknp (x : RegIx) : Statement (.sknp x) :=
  wellFormedWord_of_row ⟨0xF0FF, 0xE0A1⟩ (by decide) (packXNN_mask_nn 0xE x 0xA1)
theorem ldVxDt (x : RegIx) : Statement (.ldVxDt x) :=
  wellFormedWord_of_row ⟨0xF0FF, 0xF007⟩ (by decide) (packXNN_mask_nn 0xF x 0x07)
theorem ldVxK (x : RegIx) : Statement (.ldVxK x) :=
  wellFormedWord_of_row ⟨0xF0FF, 0xF00A⟩ (by decide) (packXNN_mask_nn 0xF x 0x0A)
theorem ldDtVx (x : RegIx) : Statement (.ldDtVx x) :=
  wellFormedWord_of_row ⟨0xF0FF, 0xF015⟩ (by decide) (packXNN_mask_nn 0xF x 0x15)
theorem ldStVx (x : RegIx) : Statement (.ldStVx x) :=
  wellFormedWord_of_row ⟨0xF0FF, 0xF018⟩ (by decide) (packXNN_mask_nn 0xF x 0x18)
theorem addI (x : RegIx) : Statement (.addI x) :=
  wellFormedWord_of_row ⟨0xF0FF, 0xF01E⟩ (by decide) (packXNN_mask_nn 0xF x 0x1E)
theorem ldF (x : RegIx) : Statement (.ldF x) :=
  wellFormedWord_of_row ⟨0xF0FF, 0xF029⟩ (by decide) (packXNN_mask_nn 0xF x 0x29)
theorem ldB (x : RegIx) : Statement (.ldB x) :=
  wellFormedWord_of_row ⟨0xF0FF, 0xF033⟩ (by decide) (packXNN_mask_nn 0xF x 0x33)
theorem storeRegs (x : RegIx) : Statement (.storeRegs x) :=
  wellFormedWord_of_row ⟨0xF0FF, 0xF055⟩ (by decide) (packXNN_mask_nn 0xF x 0x55)
theorem loadRegs (x : RegIx) : Statement (.loadRegs x) :=
  wellFormedWord_of_row ⟨0xF0FF, 0xF065⟩ (by decide) (packXNN_mask_nn 0xF x 0x65)

end Sys2Proof.Laws.TableRow
end

