-- ==== Sys2Proof/Tests/Slice0.lean ====
section
/-! SUPPORT. Tests: ill-formed words, words decoded from the spec's patterns bit by bit, one step per instruction against
the vectors of spec/95_test_vectors.md (L1, L2) or the examples of the instruction rules, the scheduler, and for each
obligation with hypotheses a state that meets them all. -/

namespace Sys2Proof.Tests

open Sys2Proof Sys2Proof.Machine

/-! ### Helpers -/

/-- The reset state with some registers loaded. -/
def regs (xs : List (RegIx × Byte)) : State := xs.foldl (fun s p => s.setV p.1 p.2) State.reset

/-- The state with some bytes placed in memory. -/
def State.withBytes (s : State) (a : Nat) (bs : List Byte) : State := s.setMem (s.mem.writeList a bs)

/-- The next state, if the answer is one. -/
def nextOf : Answer → Option State
  | .next t => some t
  | _ => none

/-- A field of the next state after one instruction. -/
def after {α : Type} (i : Instr) (s : State) (f : State → α) : Option α := (nextOf (exec i s)).map f

/-- A field of the next state after one step of the machine. -/
def afterStep {α : Type} (s : State) (f : State → α) : Option α := (nextOf (step s)).map f

/-- At a tick boundary with host calls pending. -/
def atBoundary (calls : List HostCall) : State := { State.reset with phase := .boundary, calls := calls }

/-! ### Ill-formed words and bytes (30_encoding.md R105-R109) -/

theorem test_illformed_class0 : wellFormedWord 0x01E0 = false ∧ wellFormedWord 0x0000 = false ∧
    wellFormedWord 0x0123 = false ∧ wellFormedWord 0x00EF = false := by decide
theorem test_illformed_class5_class9 : wellFormedWord 0x5121 = false ∧ wellFormedWord 0x9121 = false := by decide
theorem test_illformed_class8 : wellFormedWord 0x8128 = false ∧ wellFormedWord 0x800F = false := by decide
theorem test_illformed_classE : wellFormedWord 0xE1FF = false ∧ wellFormedWord 0xE09F = false := by decide
theorem test_illformed_classF : wellFormedWord 0xF1FF = false ∧ wellFormedWord 0xF156 = false := by decide
theorem test_illformed_bytes : wellFormedBytes [0x00] = false ∧ wellFormedBytes [0x00, 0xE0, 0x00] = false ∧
    wellFormedBytes [0x01, 0xE0] = false ∧ wellFormedBytes [0x00, 0xE0] = true := by decide
theorem test_decode_rejects : decodeBytes [0x51, 0x21] = .error (.unknownOpcode 0x5121) ∧
    decodeBytes [0x12] = .error .truncated := by decide
theorem test_wf_memory_rejects : Memory.wf [(0x300, 0)] = false ∧ Memory.wf [(0x301, 1), (0x300, 1)] = false ∧
    Memory.wf [(0x1000, 1)] = false ∧ Memory.wf [(0x000, 0xF0)] = false ∧ Memory.wf [(0x300, 1), (0x301, 1)] = true := by
  decide

/-! ### Decoding, each word written out from its pattern in R104 -/

theorem test_decode_control :
    decode 0b0000000011101110 = .known .ret ∧
    decode 0b0001101000110101 = .known (.jp 0xA35) ∧
    decode 0b0010001000010000 = .known (.call 0x210) ∧
    decode 0b0011000101000010 = .known (.seImm 1 0x42) ∧
    decode 0b0100000101000010 = .known (.sneImm 1 0x42) ∧
    decode 0b0101000100100000 = .known (.seReg 1 2) ∧
    decode 0b1001000100100000 = .known (.sneReg 1 2) ∧
    decode 0b1011001100000000 = .known (.jpV0 0x300) := by decide
theorem test_decode_alu :
    decode 0b0110101000000010 = .known (.ldImm 0xA 0x02) ∧
    decode 0b0111101000000101 = .known (.addImm 0xA 0x05) ∧
    decode 0b1000000100100000 = .known (.ldReg 1 2) ∧
    decode 0b1000000100100001 = .known (.orReg 1 2) ∧
    decode 0b1000000100100010 = .known (.andReg 1 2) ∧
    decode 0b1000000100100011 = .known (.xorReg 1 2) ∧
    decode 0b1000000100100100 = .known (.addReg 1 2) ∧
    decode 0b1000000100100101 = .known (.sub 1 2) ∧
    decode 0b1000000100100110 = .known (.shr 1 2) ∧
    decode 0b1000000100100111 = .known (.subn 1 2) ∧
    decode 0b1000000100101110 = .known (.shl 1 2) ∧
    decode 0b1100000100001111 = .known (.rnd 1 0x0F) := by decide
theorem test_decode_index :
    decode 0b1010001100000000 = .known (.ldI 0x300) ∧
    decode 0b1111001000011110 = .known (.addI 2) ∧
    decode 0b1111001100101001 = .known (.ldF 3) ∧
    decode 0b1111000100110011 = .known (.ldB 1) ∧
    decode 0b1111001001010101 = .known (.storeRegs 2) ∧
    decode 0b1111001001100101 = .known (.loadRegs 2) := by decide
theorem test_decode_display :
    decode 0b0000000011100000 = .known .cls ∧
    decode 0b1101000000010001 = .known (.drw 0 1 1) := by decide
theorem test_decode_keypad_timers :
    decode 0b1110000110011110 = .known (.skp 1) ∧
    decode 0b1110000110100001 = .known (.sknp 1) ∧
    decode 0b1111001100000111 = .known (.ldVxDt 3) ∧
    decode 0b1111001000001010 = .known (.ldVxK 2) ∧
    decode 0b1111010000010101 = .known (.ldDtVx 4) ∧
    decode 0b1111000100011000 = .known (.ldStVx 1) := by decide
/-- L1.1: the fields of 0x6A02. -/
theorem test_fields : fieldClass 0x6A02 = 0x6 ∧ fieldX 0x6A02 = 0xA ∧ fieldY 0x6A02 = 0x0 ∧ fieldN 0x6A02 = 0x2 ∧
    fieldNN 0x6A02 = 0x02 ∧ fieldNNN 0x6A02 = 0xA02 := by decide
theorem test_decodeTableWord : decodeTableWord 16 0xD125 = some (.drw 1 2 5) ∧ decodeTableWord 16 0x0000 = none := by
  decide

/-! ### Control flow (L2.2) -/

theorem test_ret : after .ret { State.reset with sp := 1, stack := Vector.replicate 16 0x456 }
    (fun t => (t.pc, t.sp)) = some (0x456, 0) := by decide
theorem test_ret_empty : after .ret State.reset (fun t => (t.status, t.pc, t.fault)) =
    some (.halted, 0x200, some ⟨.stackUnderflow, some 0x200, some 0x00EE, 0⟩) := by decide
theorem test_jp : after (.jp 0xA35) State.reset (·.pc) = some 0xA35 := by decide
theorem test_call_at_top : after (.call 0x400) { State.reset with pc := 0xFFE } (fun t => (t.pc, t.sp, t.stack[0])) =
    some (0x400, 1, 0x1000) := by decide
theorem test_call_full : after (.call 0x400) { State.reset with sp := 16 } (fun t => (t.pc, t.sp, t.fault)) =
    some (0x200, 16, some ⟨.stackOverflow, some 0x200, some 0x2400, 16⟩) := by decide
theorem test_seImm : after (.seImm 3 0x42) (regs [(3, 0x42)]) (·.pc) = some 0x204 ∧
    after (.seImm 3 0x42) (regs [(3, 0x41)]) (·.pc) = some 0x202 := by decide
theorem test_sneImm : after (.sneImm 3 0x42) (regs [(3, 0x42)]) (·.pc) = some 0x202 ∧
    after (.sneImm 3 0x42) (regs [(3, 0x41)]) (·.pc) = some 0x204 := by decide
theorem test_seReg : after (.seReg 1 2) (regs [(1, 7), (2, 7)]) (·.pc) = some 0x204 ∧
    after (.seReg 1 2) (regs [(1, 7), (2, 8)]) (·.pc) = some 0x202 := by decide
theorem test_sneReg : after (.sneReg 1 2) (regs [(1, 7), (2, 8)]) (·.pc) = some 0x204 ∧
    after (.sneReg 1 1) (regs [(1, 7)]) (·.pc) = some 0x202 := by decide
theorem test_jpV0 : after (.jpV0 0xFFF) (regs [(0, 0xFF)]) (·.pc) = some 0x10FE := by decide

/-! ### Registers, arithmetic, logic (L2.3) -/

theorem test_ldImm : after (.ldImm 0xA 0x02) State.reset (·.reg 0xA) = some 0x02 := by decide
theorem test_addImm_no_carry : after (.addImm 0xA 0x05) (regs [(0xA, 0xFE), (0xF, 0x33)])
    (fun t => (t.reg 0xA, t.reg 0xF)) = some (0x03, 0x33) := by decide
theorem test_ldReg : after (.ldReg 1 2) (regs [(1, 0x01), (2, 0x5A)]) (·.reg 1) = some 0x5A := by decide
theorem test_orReg : after (.orReg 1 2) (regs [(1, 0xF0), (2, 0x0F), (0xF, 7)]) (fun t => (t.reg 1, t.reg 0xF)) =
    some (0xFF, 7) := by decide
theorem test_andReg : after (.andReg 1 2) (regs [(1, 0xF0), (2, 0x3C)]) (·.reg 1) = some 0x30 := by decide
theorem test_xorReg : after (.xorReg 1 2) (regs [(1, 0xFF), (2, 0x0F)]) (·.reg 1) = some 0xF0 := by decide
theorem test_addReg_old_flag : after (.addReg 1 0xF) (regs [(1, 0x10), (0xF, 0xF5)]) (fun t => (t.reg 1, t.reg 0xF)) =
    some (0x05, 1) := by decide
theorem test_addReg_into_flag : after (.addReg 0xF 1) (regs [(0xF, 0xFF), (1, 0x01)]) (·.reg 0xF) = some 0x00 := by
  decide
theorem test_sub_wraps_and_equal : after (.sub 1 2) (regs [(1, 3), (2, 5)]) (fun t => (t.reg 1, t.reg 0xF)) =
    some (0xFE, 0) ∧ after (.sub 1 2) (regs [(1, 5), (2, 5)]) (fun t => (t.reg 1, t.reg 0xF)) = some (0, 0) := by decide
theorem test_sub_sequential : after (.sub 0xF 2) (regs [(0xF, 0x10), (2, 1)]) (·.reg 0xF) = some 0x00 ∧
    after (.sub 1 0xF) (regs [(1, 0x10), (0xF, 0x20)]) (fun t => (t.reg 1, t.reg 0xF)) = some (0x10, 0) := by decide
theorem test_shr_ignores_y : after (.shr 1 2) (regs [(1, 0x80), (2, 0x33)]) (fun t => (t.reg 1, t.reg 0xF)) =
    some (0x40, 0) := by decide
theorem test_shr_flag : after (.shr 1 0xF) (regs [(1, 0xFF), (0xF, 7)]) (fun t => (t.reg 1, t.reg 0xF)) =
    some (0x7F, 1) ∧ after (.shr 0xF 0) (regs [(0xF, 3)]) (·.reg 0xF) = some 0 := by decide
theorem test_subn : after (.subn 1 2) (regs [(1, 5), (2, 3)]) (fun t => (t.reg 1, t.reg 0xF)) = some (0xFE, 0) := by
  decide
theorem test_subn_sequential : after (.subn 0xF 2) (regs [(0xF, 3), (2, 5)]) (·.reg 0xF) = some 4 ∧
    after (.subn 1 0xF) (regs [(1, 2), (0xF, 5)]) (fun t => (t.reg 1, t.reg 0xF)) = some (0xFF, 1) := by decide
theorem test_shl_bit7_not_bit4 : after (.shl 1 0) (regs [(1, 0x10)]) (fun t => (t.reg 1, t.reg 0xF)) = some (0x20, 0) ∧
    after (.shl 1 0) (regs [(1, 0x81)]) (fun t => (t.reg 1, t.reg 0xF)) = some (0x02, 1) := by decide
theorem test_shl_flag : after (.shl 0xF 0) (regs [(0xF, 0x80)]) (·.reg 0xF) = some 2 := by decide
theorem test_rnd_draws_once : after (.rnd 1 0x0F) State.reset (·.draws) = some 1 ∧
    after (.rnd 1 0x0F) State.reset (·.pc) = some 0x202 := by decide

/-! ### Index and memory (L2.4) -/

theorem test_ldI : after (.ldI 0x123) State.reset (·.i) = some 0x123 := by decide
theorem test_addI_wraps : after (.addI 1) { regs [(1, 2), (0xF, 9)] with i := 0xFFF } (fun t => (t.i, t.reg 0xF)) =
    some (0x001, 9) := by decide
theorem test_ldF : after (.ldF 3) (regs [(3, 0x0A)]) (·.i) = some 0x032 ∧
    after (.ldF 3) (regs [(3, 0xFF)]) (·.i) = some 0x4FB := by decide
theorem test_ldB : after (.ldB 1) { regs [(1, 157)] with i := 0x300 } (fun t => (t.mem, t.i)) =
    some ([(0x300, 1), (0x301, 5), (0x302, 7)], 0x300) := by decide
theorem test_ldB_at_top : after (.ldB 1) { regs [(1, 157)] with i := 0xFFE } (fun t => (t.mem, t.fault)) =
    some ([], some ⟨.memoryBounds, some 0x200, some 0xF133, 0x1000⟩) ∧
    after (.ldB 1) { regs [(1, 157)] with i := 0xFFE, policy := .permissive } (fun t => (t.mem, t.events, t.pc)) =
    some ([(0xFFE, 1), (0xFFF, 5)], [.boundsIgnored 0x1000], 0x202) := by decide
theorem test_storeRegs : after (.storeRegs 2) { regs [(0, 1), (1, 2), (2, 3)] with i := 0x300 } (fun t => (t.mem, t.i)) =
    some ([(0x300, 1), (0x301, 2), (0x302, 3)], 0x303) := by decide
theorem test_storeRegs_at_top :
    after (.storeRegs 1) { regs [(0, 0xAA), (1, 0xBB)] with i := 0xFFF } (fun t => (t.mem, t.i, t.fault)) =
      some ([], 0xFFF, some ⟨.memoryBounds, some 0x200, some 0xF155, 0x1000⟩) ∧
    after (.storeRegs 1) { regs [(0, 0xAA), (1, 0xBB)] with i := 0xFFF, policy := .permissive } (fun t => (t.mem, t.i)) =
      some ([(0xFFF, 0xAA)], 0x001) := by decide
theorem test_loadRegs : after (.loadRegs 2) (State.withBytes { State.reset with i := 0x300 } 0x300 [1, 5, 7])
    (fun t => (t.reg 0, t.reg 1, t.reg 2, t.i)) = some (1, 5, 7, 0x303) := by decide
theorem test_loadRegs_permissive :
    after (.loadRegs 1) (State.withBytes { regs [(1, 9)] with i := 0xFFF, policy := .permissive } 0xFFF [0x42])
      (fun t => (t.reg 0, t.reg 1, t.i, t.events)) = some (0x42, 0, 0x001, [.boundsIgnored 0x1000]) := by decide

/-! ### Display (L2.5) -/

theorem test_cls : after .cls { State.reset with fb := State.reset.fb.setPixel 1 1 true }
    (fun t => (t.fb, t.events)) = some (Frame.clear, [.frameUpdated Frame.clear]) := by decide
theorem test_drw_wraps_and_collides :
    after (.drw 0 1 1) (State.withBytes { regs [(0, 63), (1, 31)] with i := 0x300 } 0x300 [0xC0])
      (fun t => (t.fb.pixel 63 31, t.fb.pixel 0 31, t.fb.pixel 1 31, t.reg 0xF)) = some (true, true, false, 0) ∧
    after (.drw 0 1 1)
      (State.withBytes { regs [] with i := 0x300, fb := State.reset.fb.setPixel 1 0 true } 0x300 [0xC0])
      (fun t => (t.fb.pixel 0 0, t.fb.pixel 1 0, t.reg 0xF)) = some (true, false, 1) := by decide
theorem test_drw_latches_flag_and_faults :
    after (.drw 0xF 0 1) (State.withBytes { regs [(0xF, 10), (0, 3)] with i := 0x300 } 0x300 [0x80])
      (fun t => (t.fb.pixel 10 3, t.reg 0xF)) = some (true, 0) ∧
    after (.drw 0 1 2) (State.withBytes { regs [(0xF, 7)] with i := 0xFFF } 0xFFF [0x80])
      (fun t => (t.fb.pixel 0 0, t.reg 0xF, t.events, t.fault)) =
      some (false, 7, [], some ⟨.memoryBounds, some 0x200, some 0xD012, 0x1000⟩) := by decide
/-- Log 18: drawn twice over a pixel that is on, the second draw turns it on again and reports 0 (R292), where the words of
R293 would report 1. -/
theorem test_drw_twice_over_lit_pixel :
    ((nextOf (exec (.drw 0 1 1)
      (State.withBytes { regs [] with i := 0x300, fb := State.reset.fb.setPixel 0 0 true } 0x300 [0x80]))).bind
        fun t => after (.drw 0 1 1) t fun u => (t.reg 0xF, u.fb.pixel 0 0, u.reg 0xF)) = some (1, true, 0) := by decide

/-! ### Keypad and timers (L2.6) -/

theorem test_skp : after (.skp 1) { regs [(1, 5)] with keys := 0x0020 } (·.pc) = some 0x204 ∧
    after (.skp 1) (regs [(1, 5)]) (·.pc) = some 0x202 := by decide
theorem test_skp_index : after (.skp 1) (regs [(1, 0x10)]) (fun t => (t.pc, t.fault)) =
    some (0x200, some ⟨.keyIndexRange, some 0x200, some 0xE19E, 0x10⟩) := by decide
theorem test_sknp : after (.sknp 1) { regs [(1, 5)] with keys := 0x0020 } (·.pc) = some 0x202 ∧
    after (.sknp 1) (regs [(1, 5)]) (·.pc) = some 0x204 := by decide
theorem test_sknp_index : after (.sknp 1) (regs [(1, 0x10)]) (·.status) = some .halted := by decide
theorem test_ldVxK : after (.ldVxK 2) { regs [(2, 9)] with keys := 0x0088 } (·.reg 2) = some 3 ∧
    after (.ldVxK 2) (regs [(2, 9)]) (fun t => (t.reg 2, t.pc)) = some (9, 0x202) := by decide
theorem test_ldVxDt : after (.ldVxDt 3) { State.reset with dt := 0x3C } (·.reg 3) = some 0x3C := by decide
theorem test_ldDtVx : after (.ldDtVx 4) (regs [(4, 0x78)]) (fun t => (t.dt, t.st)) = some (0x78, 0) := by decide
theorem test_ldStVx : after (.ldStVx 1) (regs [(1, 2)]) (fun t => (t.st, t.soundActive, t.dt)) = some (2, true, 0) := by
  decide

/-! ### The step and the scheduler (L2.1) -/

theorem test_fetch_at_ffe : afterStep (State.withBytes { State.reset with pc := 0xFFE } 0xFFE [0x12, 0x34]) (·.pc) =
    some 0x234 := by decide
theorem test_fetch_at_fff : afterStep { State.reset with pc := 0xFFF } (fun t => (t.pc, t.fault)) =
    some (0xFFF, some ⟨.memoryBounds, some 0xFFF, none, 0x1000⟩) := by decide
theorem test_fetch_odd : afterStep (State.withBytes { State.reset with pc := 0x201 } 0x201 [0x60, 0x07])
    (fun t => (t.reg 0, t.pc)) = some (7, 0x203) := by decide
theorem test_unknown : afterStep State.reset (fun t => (t.pc, t.events)) =
    some (0x202, [.unknownOpcode 0x200 0x0000]) := by decide
theorem test_withFetchWord : step (State.reset.withFetchWord 16 0x6A02) =
    exec (.ldImm 0xA 0x02) (State.reset.withFetchWord 16 0x6A02) := rfl
theorem test_tick_start : afterStep (atBoundary [.tick 3 0x0020]) (fun t => (t.keys, t.phase, t.calls)) =
    some (0x0020, .steps 3, []) := by decide
theorem test_tick_end : afterStep { State.reset with phase := .steps 0, dt := 2, st := 0 }
    (fun t => (t.dt, t.st, t.phase)) = some (1, 0, .boundary) := by decide
theorem test_halted_tick : afterStep { atBoundary [.tick 3 0x0020] with status := .halted, dt := 2 }
    (fun t => (t.keys, t.phase, t.dt)) = some (0, .boundary, 2) := by decide
set_option maxRecDepth 8000 in
theorem test_init : afterStep { atBoundary [.init [0x6A, 0x02]] with status := .halted, dt := 2 }
    (fun t => (t.status, t.pc, t.dt, t.mem)) = some (.running, 0x200, 0, [(0x200, 0x6A), (0x201, 0x02)]) := by decide
theorem test_init_empty : afterStep (atBoundary [.init []]) (fun t => (t.status, t.fault)) =
    some (.unloaded, some ⟨.romEmpty, none, none, 0⟩) := by decide
theorem test_init_limits : loadCheck (List.replicate 3583 1) = .ok ∧ loadCheck (List.replicate 3584 1) = .romTooLarge := by
  simp only [loadCheck, List.length_replicate, Config.romMaxLen]
  decide

/-! ### States that meet the hypotheses of the obligations -/

theorem witness_EncodeOfDecode : decode 0x8F2E = .known (.shl 0xF 2) := by decide
theorem witness_StepRunsDecodedInstruction :
    (State.reset.withFetchWord 16 0xFF65).status = .running ∧ (State.reset.withFetchWord 16 0xFF65).pc.toNat ≤ 0xFFE ∧
    decode ((State.reset.withFetchWord 16 0xFF65).mem.read 0x200 ++ (State.reset.withFetchWord 16 0xFF65).mem.read 0x201) =
      .known (.loadRegs 0xF) ∧ (State.reset.withFetchWord 16 0xFF65).phase = .unbounded := by decide
theorem witness_StepRunsDecodedInstruction_counted :
    ({ State.reset.withFetchWord 16 0x1200 with phase := .steps 1 }).phase = .steps (0 + 1) ∧
    ({ State.reset.withFetchWord 16 0x1200 with phase := .steps 1 }).status = .running ∧
    decode ((State.reset.withFetchWord 16 0x1200).mem.read 0x200 ++ (State.reset.withFetchWord 16 0x1200).mem.read 0x201) =
      .known (.jp 0x200) := by decide
theorem witness_UnknownWordIsNoOp : State.reset.status = .running ∧ State.reset.phase = .unbounded ∧
    State.reset.pc.toNat ≤ 0xFFE ∧
    decode (State.reset.mem.read 0x200 ++ State.reset.mem.read 0x201) = .unknown 0x0000 := by decide
theorem witness_FetchPastTopHalts : (0xFFE : Nat) < ({ State.reset with pc := 0xFFF }).pc.toNat ∧
    (0xFFE : Nat) < ({ State.reset with pc := 0x10FE }).pc.toNat ∧
    ({ State.reset with pc := 0xFFF }).status = .running ∧ ({ State.reset with pc := 0xFFF }).phase = .unbounded := by decide
theorem witness_RunningStepAnswers : State.reset.status = .running ∧ State.reset.phase ≠ .boundary ∧
    ({ State.reset with phase := .steps 0 }).phase ≠ .boundary := by decide
theorem witness_StepStopsByName : (atBoundary []).phase = .boundary ∧ (atBoundary []).calls = [] ∧
    ({ State.reset with status := .halted }).phase = .unbounded ∧
    ({ State.reset with status := .halted }).status ≠ .running ∧
    ({ State.reset with status := .unloaded, phase := .steps 1 }).phase = .steps (0 + 1) ∧
    ({ State.reset with status := .unloaded, phase := .steps 1 }).status ≠ .running := by decide
/-- A fault of an instruction (RET on an empty stack) and a fault of the fetch (PC = 0x1000). -/
theorem witness_FaultsArePrecise :
    afterStep (State.reset.withFetchWord 16 0x00EE) (·.status) = some .halted ∧
    afterStep { State.reset with pc := 0x1000 } (·.status) = some .halted ∧
    (State.reset.withFetchWord 16 0x00EE).status = .running ∧ (State.reset.withFetchWord 16 0x00EE).phase = .unbounded ∧
    ({ State.reset with pc := 0x1000 }).status = .running ∧ ({ State.reset with pc := 0x1000 }).phase = .unbounded := by
  decide
theorem witness_CallPushesAndJumps : ({ State.reset with sp := 15 }).sp.val < 16 ∧
    ({ State.reset with sp := 16 }).sp.val = 16 := by decide
theorem witness_ReturnPops : ({ State.reset with sp := 1 }).sp.val ≠ 0 ∧ State.reset.sp.val = 0 := by decide
theorem witness_CallThenReturnResumes : ({ State.reset with sp := 15 }).sp.val < 16 := by decide
theorem witness_SixteenCallsNest : State.reset.status = .running ∧ State.reset.sp.val = 0 ∧
    (List.replicate 16 (0x202 : Addr)).length ≤ 16 ∧ (List.replicate 17 (0x202 : Addr)).length = 17 := by decide
theorem witness_BcdStoresDigits : accessGoesOn { State.reset with i := 0xFFD } 3 ∧
    accessGoesOn { State.reset with i := 0xFFE, policy := .permissive } 3 ∧ accessFaults { State.reset with i := 0xFFE } 3 :=
  ⟨.inl (by decide), .inr rfl, by decide, rfl⟩
theorem witness_StoreRegistersAndAdvance : accessGoesOn { State.reset with i := 0xFFF } (0 + 1) ∧
    accessGoesOn { State.reset with i := 0xFFF, policy := .permissive } (15 + 1) ∧
    accessFaults { State.reset with i := 0xFFF } (1 + 1) := ⟨.inl (by decide), .inr rfl, by decide, rfl⟩
theorem witness_LoadRegistersAndAdvance : accessGoesOn { State.reset with i := 0xFF0 } (15 + 1) ∧
    accessGoesOn { State.reset with i := 0xFFF, policy := .permissive } (15 + 1) ∧
    accessFaults { State.reset with i := 0xFF1 } (15 + 1) := ⟨.inl (by decide), .inr rfl, by decide, rfl⟩
theorem witness_StoreThenLoadRestores : ({ State.reset with i := 0xFF0 }).i.toNat + (15 : RegIx).val ≤ 0xFFF := by decide
/-- FX55 at 0x200 with I = 0x202, V0 = 0x60, V1 = 0x07: the next step executes 6007. -/
def selfModifying : State := State.withBytes { regs [(0, 0x60), (1, 0x07)] with i := 0x202 } 0x200 [0xF1, 0x55]
theorem witness_StoredWordIsExecutedNext : selfModifying.status = .running ∧ selfModifying.phase = .unbounded ∧
    selfModifying.pc.toNat ≤ 0xFFC ∧ selfModifying.mem.read 0x200 = 0xF1 ∧ selfModifying.mem.read 0x201 = 0x55 ∧
    selfModifying.i.toNat = selfModifying.pc.toNat + 2 ∧
    decode (selfModifying.reg 0 ++ selfModifying.reg 1) = .known (.ldImm 0 7) := by decide
theorem witness_DrawXorsSprite : accessGoesOn { State.reset with i := 0xFFF } 0 ∧
    accessGoesOn { State.reset with i := 0xFF1 } 15 ∧ accessFaults { State.reset with i := 0xFF2 } 15 :=
  ⟨.inl (by decide), .inl (by decide), by decide, rfl⟩
/-- A sprite that hits (glyph 0 over its lit corner) and one that does not. -/
theorem witness_DrawXorsSprite_hits :
    (spriteCovers State.reset 0 1 5 0 0 = true ∧ (State.reset.fb.setPixel 0 0 true).pixel 0 0 = true) ∧
    ¬ spriteHits State.reset 0 1 5 := by
  refine ⟨by decide, ?_⟩
  rintro ⟨px, py, -, h⟩
  simp [Frame.pixel, State.reset] at h
theorem witness_DrawTwiceRestores : (0 : RegIx) ≠ regF ∧ (1 : RegIx) ≠ regF ∧ accessGoesOn State.reset 5 ∧
    spriteCovers State.reset 0 1 5 0 0 = true ∧ State.reset.fb.pixel 0 0 = false :=
  ⟨by decide, by decide, .inl (by decide), by decide, by decide⟩
theorem witness_SkipsOnKey : ((regs [(1, 0xF)]).reg 1).toNat ≤ 0xF ∧ 0xF < ((regs [(1, 0x10)]).reg 1).toNat := by decide
theorem witness_KeyPollTakesLowest : (0x8000 : BitVec 16).getLsbD 15 = true ∧
    (∀ j, j < 15 → (0x8000 : BitVec 16).getLsbD j = false) ∧ ∀ k, k < 16 → State.reset.keys.getLsbD k = false := by decide
theorem witness_TickTakesSnapshot : (atBoundary [.tick 3 0x0020]).phase = .boundary ∧
    (atBoundary [.tick 3 0x0020]).calls = [.tick 3 0x0020] ∧ (atBoundary [.tick 3 0x0020]).status = .running ∧
    ({ atBoundary [.tick 3 0x0020] with status := .halted }).status ≠ .running := by decide
theorem witness_TickEndCountsDown : ({ State.reset with phase := .steps 0 }).phase = .steps 0 := by decide
/-- A tick whose two steps complete, one whose first step halts (RET on an empty stack), and one on a halted block. -/
theorem witness_WholeTick :
    (atBoundary [.tick 2 1]).phase = .boundary ∧ (atBoundary [.tick 2 1]).calls = .tick 2 1 :: [] ∧
    (atBoundary [.tick 2 1]).status = .running ∧
    ((nextOf (core.run 2 { State.reset with keys := 1, phase := .unbounded, calls := [] })).map (·.status) =
      some .running) ∧
    afterStep (State.reset.withFetchWord 16 0x00EE) (·.status) = some .halted ∧
    ({ atBoundary [.tick 2 1] with status := .halted }).status ≠ .running := by decide
theorem witness_StoppedBlockIsFrozen :
    ({ atBoundary [.tick 2 1, .tick 0 0] with status := .halted }).status ≠ .running ∧
    ({ atBoundary [.tick 2 1, .tick 0 0] with status := .halted }).phase = .boundary ∧
    (atBoundary [.tick 2 1, .tick 0 0]).calls = [(2, 1), (0, 0)].map fun p => HostCall.tick p.1 p.2 := by decide
theorem witness_TimersReachZero : (atBoundary (List.replicate 2 (.tick 0 5))).status = .running ∧
    (atBoundary (List.replicate 2 (.tick 0 5))).phase = .boundary ∧
    (atBoundary (List.replicate 2 (.tick 0 5))).calls = List.replicate 2 (.tick 0 5) := by decide
theorem witness_InitLoadsProgram : (atBoundary [.init [0x12]]).phase = .boundary ∧
    (atBoundary [.init [0x12]]).calls = .init [0x12] :: [] ∧ 1 ≤ ([0x12] : List Byte).length ∧
    (List.replicate 3583 (0 : Byte)).length ≤ 3583 :=
  ⟨rfl, rfl, by decide, Nat.le_of_eq List.length_replicate⟩
theorem witness_InitRefusesBadLength : (atBoundary [.init []]).phase = .boundary ∧
    (atBoundary [.init []]).calls = .init [] :: [] ∧ ([] : List Byte).length = 0 ∧
    3583 < (List.replicate 3584 (0 : Byte)).length :=
  ⟨rfl, rfl, rfl, Nat.lt_of_lt_of_eq (by decide) List.length_replicate.symm⟩
theorem witness_InitOfZerosIsReset : (atBoundary [.init (List.replicate 1 0)]).phase = .boundary ∧
    (atBoundary [.init (List.replicate 1 0)]).calls = .init (List.replicate 1 0) :: [] ∧
    (atBoundary [.init (List.replicate 1 0)]).font = defaultFont ∧
    (atBoundary [.init (List.replicate 1 0)]).policy = .halt := ⟨rfl, rfl, rfl, rfl⟩
/-- A state that satisfies the invariant, and its step. -/
theorem witness_StepKeepsInvariant : State.reset.mem.wf = true ∧ State.reset.pc.toNat ≤ 0x10FE ∧
    (∀ j : Fin 16, (State.reset.stack[j.val]).toNat ≤ 0x1000) ∧ State.reset.status = .running ∧
    State.reset.fault = none ∧ afterStep State.reset (·.pc) = some 0x202 := by decide

end Sys2Proof.Tests
end

section
/-! SUPPORT. What a step keeps, composed: one frame per operation of the state, and how frames of two updates in a row
add up. -/

namespace Sys2Proof.Machine

/-! ### Composing frames -/

theorem Part.same.trans {p : Part} {s t u : State} (hst : p.same s t) (htu : p.same t u) : p.same s u := by
  cases p with
  | mem => exact fun a => (htu a).trans (hst a)
  | _ => exact Eq.trans htu hst

/-- Two updates in a row change at most the pieces of either. -/
theorem KeepsAllBut.trans {ps qs : List Part} {s t u : State} (hst : KeepsAllBut ps s t) (htu : KeepsAllBut qs t u) :
    KeepsAllBut (ps ++ qs) s u := by
  intro p hp
  rw [List.mem_append, not_or] at hp
  exact (hst p hp.1).trans (htu p hp.2)

theorem KeepsAllBut.mono {ps qs : List Part} {s t : State} (h : KeepsAllBut ps s t) (hsub : ps ⊆ qs) :
    KeepsAllBut qs s t :=
  fun p hp => h p fun hmem => hp (hsub hmem)

/-- An update outside the register file changes no general register. -/
theorem KeepsAllBut.keepsRegs {ps : List Part} {s t : State} (h : KeepsAllBut ps s t) (hv : .v ∉ ps)
    (xs : List RegIx) : KeepsRegsBut xs s t :=
  fun r _ => State.reg_congr (h .v hv) r

theorem KeepsRegsBut.trans {xs ys : List RegIx} {s t u : State} (hst : KeepsRegsBut xs s t)
    (htu : KeepsRegsBut ys t u) : KeepsRegsBut (xs ++ ys) s u := by
  intro r hr
  rw [List.mem_append, not_or] at hr
  exact (htu r hr.2).trans (hst r hr.1)

/-! ### One frame per operation -/

/-- Events appended to the stream, in order (60_exceptions.md R357). -/
def State.emitAll (s : State) (es : List Event) : State := { s with events := s.events ++ es }

theorem setV_keeps (s : State) (x : RegIx) (b : Byte) : KeepsAllBut [.v] s (s.setV x b) := by
  intro p hp; cases p <;> simp_all [Part.same]

theorem setFlag_keeps (s : State) (b : Bool) : KeepsAllBut [.v] s (s.setFlag b) := setV_keeps s regF (flagByte b)

theorem setVList_keeps (s : State) (bs : List Byte) : KeepsAllBut [.v] s (s.setVList bs) := by
  intro p hp; cases p <;> simp_all [Part.same]

theorem setI_keeps (s : State) (n : Nat) : KeepsAllBut [.i] s (s.setI n) := by
  intro p hp; cases p <;> simp_all [Part.same]

theorem setPc_keeps (s : State) (n : Nat) : KeepsAllBut [.pc] s (s.setPc n) := by
  intro p hp; cases p <;> simp_all [Part.same]

theorem advance_keeps (s : State) : KeepsAllBut [.pc] s s.advance := setPc_keeps s _

theorem setDt_keeps (s : State) (b : Byte) : KeepsAllBut [.dt] s (s.setDt b) := by
  intro p hp; cases p <;> simp_all [Part.same]

theorem setSt_keeps (s : State) (b : Byte) : KeepsAllBut [.st] s (s.setSt b) := by
  intro p hp; cases p <;> simp_all [Part.same]

theorem setMem_keeps (s : State) (m : Memory) : KeepsAllBut [.mem] s (s.setMem m) := by
  intro p hp; cases p <;> simp_all [Part.same]

theorem setFb_keeps (s : State) (f : Frame) : KeepsAllBut [.fb] s (s.setFb f) := by
  intro p hp; cases p <;> simp_all [Part.same]

theorem emitAll_keeps (s : State) (es : List Event) : KeepsAllBut [.events] s (s.emitAll es) := by
  intro p hp; cases p <;> simp_all [Part.same, State.emitAll]

theorem emitFrame_keeps (s : State) : KeepsAllBut [.events] s s.emitFrame := emitAll_keeps s _

theorem rand8_keeps (s : State) : KeepsAllBut [.draws] s s.rand8.2 := by
  intro p hp; cases p <;> simp_all [Part.same, State.rand8]

theorem setV_keepsRegs (s : State) (x : RegIx) (b : Byte) : KeepsRegsBut [x] s (s.setV x b) :=
  fun _ hr => State.reg_setV_of_ne s b (by simpa using hr)

theorem setFlag_keepsRegs (s : State) (b : Bool) : KeepsRegsBut [regF] s (s.setFlag b) :=
  setV_keepsRegs s regF (flagByte b)

end Sys2Proof.Machine
end

section
/-! SUPPORT. The execute phase in closed form: the fault an instruction raises, if it raises one, and the state it
completes in otherwise; tied to `exec` by `exec_of_completes` and `exec_of_raised`. What is proved of every instruction is
proved of these two total functions. -/

namespace Sys2Proof.Machine

/-! ### The shared parts -/

/-- The fault of a data access to the `n` bytes from I on (20_memory.md R72, R73): the first address above 0xFFF. -/
def dataFault (s : State) (n : Nat) : Option Raised :=
  if s.i.toNat + n ≤ 0x1000 ∨ s.policy = .permissive then none else some ⟨.memoryBounds, 0x1000⟩

theorem dataFault_eq_none {s : State} {n : Nat} : dataFault s n = none ↔ accessGoesOn s n := by
  unfold dataFault accessGoesOn
  split
  · next h => simp only [h]
  · next h => simp only [h, reduceCtorEq]

theorem dataFault_eq_some {s : State} {n : Nat} {r : Raised} :
    dataFault s n = some r ↔ accessFaults s n ∧ r = ⟨.memoryBounds, 0x1000⟩ := by
  cases hp : s.policy <;> simp [dataFault, accessFaults, hp, eq_comm]

/-- The fault of a keypad read at index `k` (60_exceptions.md R356). -/
def keyFault (k : Byte) : Option Raised := if 0xF < k.toNat then some ⟨.keyIndexRange, k.toNat⟩ else none

theorem keyFault_eq_some {k : Byte} {r : Raised} :
    keyFault k = some r ↔ 0xF < k.toNat ∧ r = ⟨.keyIndexRange, k.toNat⟩ := by
  simp [keyFault, eq_comm]

/-- The `n` bytes a data read from I on gives. -/
def dataBytes (s : State) (n : Nat) : List Byte := (List.range n).map (dataByte s)

/-- PC advanced and bytes stored from I on, those above 0xFFF dropped with an event each. -/
def State.stored (s : State) (bs : List Byte) : State :=
  (s.advance.setMem (s.mem.writeList s.i.toNat (bs.take (0x1000 - s.i.toNat)))).emitAll (ignoredEvents s bs.length)

/-- The address after the instruction, or after the next one where it is skipped. -/
def skipTarget (s : State) (c : Bool) : Nat := s.pc.toNat + if c then 4 else 2

/-- What FX0A leaves in Vx: the lowest pressed key, or what it held. -/
def polledKey (s : State) (x : RegIx) : Byte := (s.lowestKey.map (BitVec.ofNat 8)).getD (s.reg x)

/-- The framebuffer and the collision of DXYN. -/
def drawnCanvas (x y : RegIx) (n : Nat) (s : State) : Canvas :=
  Canvas.drawRows (s.reg x).toNat (s.reg y).toNat (dataBytes s n) ⟨s.fb, false⟩

/-! ### The two functions -/

/-- The fault an instruction raises from `s`, if any. -/
def raised (i : Instr) (s : State) : Option Raised :=
  match i with
  | .call _ => if s.sp.val < 16 then none else some ⟨.stackOverflow, 16⟩
  | .ret => if s.sp.val = 0 then some ⟨.stackUnderflow, 0⟩ else none
  | .skp x | .sknp x => keyFault (s.reg x)
  | .drw _ _ n => dataFault s n.toNat
  | .ldB _ => dataFault s 3
  | .storeRegs x | .loadRegs x => dataFault s (x.val + 1)
  | _ => none

/-- The state an instruction completes in, where it raises no fault. -/
def completed (i : Instr) (s : State) : State :=
  match i with
  | .cls => (s.advance.setFb Frame.clear).emitFrame
  | .ret => { s with sp := ⟨s.sp.val - 1, by omega⟩, pc := s.stack[s.sp.val - 1] }
  | .jp nnn => s.setPc nnn.toNat
  | .call nnn =>
    { s with
      stack := s.stack.setIfInBounds s.sp.val s.advance.pc
      sp := Fin.ofNat 17 (s.sp.val + 1)
      pc := BitVec.ofNat 16 nnn.toNat }
  | .seImm x nn => s.setPc (skipTarget s (s.reg x == nn))
  | .sneImm x nn => s.setPc (skipTarget s (s.reg x != nn))
  | .seReg x y => s.setPc (skipTarget s (s.reg x == s.reg y))
  | .sneReg x y => s.setPc (skipTarget s (s.reg x != s.reg y))
  | .skp x => s.setPc (skipTarget s (s.key (s.reg x).toNat))
  | .sknp x => s.setPc (skipTarget s (!s.key (s.reg x).toNat))
  | .jpV0 nnn => s.setPc (jumpTarget nnn (s.reg 0))
  | .ldImm x nn => s.advance.setV x nn
  | .addImm x nn => s.advance.setV x (s.reg x + nn)
  | .ldReg x y => s.advance.setV x (s.reg y)
  | .orReg x y => s.advance.setV x (s.reg x ||| s.reg y)
  | .andReg x y => s.advance.setV x (s.reg x &&& s.reg y)
  | .xorReg x y => s.advance.setV x (s.reg x ^^^ s.reg y)
  | .ldVxDt x => s.advance.setV x s.dt
  | .ldVxK x => s.advance.setV x (polledKey s x)
  | .addReg x y => (s.advance.setFlag (carryOut (s.reg x) (s.reg y))).setV x (s.reg x + s.reg y)
  | .sub x y => (s.advance.setFlag (strictlyGreater (s.reg x) (s.reg y))).subInto x y
  | .shr x _ => (s.advance.setFlag (lowBit (s.reg x))).shiftRight x
  | .subn x y => (s.advance.setFlag (strictlyGreater (s.reg y) (s.reg x))).subFrom x y
  | .shl x _ => (s.advance.setFlag (highBit (s.reg x))).shiftLeft x
  | .rnd x nn => s.advance.rand8.2.setV x (Config.randByte s.draws &&& nn)
  | .drw x y n =>
    (((s.advance.emitAll (ignoredEvents s n.toNat)).setFb (drawnCanvas x y n.toNat s).fb).setFlag
      (drawnCanvas x y n.toNat s).hit).emitFrame
  | .ldI nnn => s.advance.setI nnn.toNat
  | .addI x => s.advance.setI (s.i.toNat + (s.reg x).toNat)
  | .ldF x => s.advance.setI (glyphAddr (s.reg x))
  | .ldDtVx x => s.advance.setDt (s.reg x)
  | .ldStVx x => s.advance.setSt (s.reg x)
  | .ldB x => s.stored (bcdDigits (s.reg x))
  | .storeRegs x => (s.stored (s.vUpTo x)).setI (s.effAddr (x.val + 1))
  | .loadRegs x =>
    ((s.advance.emitAll (ignoredEvents s (x.val + 1))).setVList (dataBytes s (x.val + 1))).setI (s.effAddr (x.val + 1))

/-! ### The faults -/

/-- The name of a raised fault and its `info` fit: an address above 0xFFF, a full or empty stack, an index above 0xF. -/
def Raised.Fits (r : Raised) : Prop :=
  r.code = .memoryBounds ∧ 0xFFF < r.info ∨ r.code = .stackOverflow ∧ r.info = 16 ∨
    r.code = .stackUnderflow ∧ r.info = 0 ∨ r.code = .keyIndexRange ∧ 0xF < r.info

/-- A fault an instruction raises is one it may raise, and its `info` fits (60_exceptions.md R350). -/
theorem raised_spec {i : Instr} {s : State} {r : Raised} (h : raised i s = some r) :
    mayRaise s i r.code = true ∧ r.Fits := by
  have data : ∀ {n : Nat}, dataFault s n = some r → r.code = .memoryBounds ∧ (s.policy == .halt) = true ∧ r.Fits := by
    intro n hn
    obtain ⟨⟨-, hp⟩, rfl⟩ := dataFault_eq_some.mp hn
    exact ⟨rfl, beq_iff_eq.mpr hp, .inl ⟨rfl, by decide⟩⟩
  cases i with
  | call _ =>
    simp only [raised] at h
    split at h
    · cases h
    · cases h; exact ⟨rfl, .inr (.inl ⟨rfl, rfl⟩)⟩
  | ret =>
    simp only [raised] at h
    split at h
    · cases h; exact ⟨rfl, .inr (.inr (.inl ⟨rfl, rfl⟩))⟩
    · cases h
  | skp _ | sknp _ =>
    obtain ⟨hk, rfl⟩ := keyFault_eq_some.mp h
    exact ⟨rfl, .inr (.inr (.inr ⟨rfl, hk⟩))⟩
  | drw _ _ _ | ldB _ | storeRegs _ | loadRegs _ =>
    obtain ⟨hc, hp, hfits⟩ := data h
    rw [hc]
    exact ⟨hp, hfits⟩
  | _ => cases h

/-! ### The tie to `exec` -/

theorem readBytes_of_goesOn {s : State} {n : Nat} (h : accessGoesOn s n) :
    readBytes (s.effAddr 0) n s.advance = .ok (dataBytes s n, s.advance.emitAll (ignoredEvents s n)) :=
  readBytes_ok h

theorem readBytes_of_faults {s : State} {n : Nat} (h : accessFaults s n) :
    readBytes (s.effAddr 0) n s.advance = .error ⟨.memoryBounds, 0x1000⟩ :=
  readBytes_error (Nat.le_of_lt s.i.isLt) h.1 h.2

theorem writeBytes_of_goesOn {s : State} {bs : List Byte} (h : accessGoesOn s bs.length) :
    writeBytes (s.effAddr 0) bs s.advance = .ok (s.stored bs) :=
  writeBytes_ok h

theorem writeBytes_of_faults {s : State} {bs : List Byte} (h : accessFaults s bs.length) :
    writeBytes (s.effAddr 0) bs s.advance = .error ⟨.memoryBounds, 0x1000⟩ :=
  writeBytes_error (Nat.le_of_lt s.i.isLt) h.1 h.2

theorem length_vUpTo (s : State) (x : RegIx) : (s.vUpTo x).length = x.val + 1 := by
  simp [State.vUpTo]

/-- The fetch advance and a skip move PC by 2 or by 4. -/
theorem advance_skipIf (s : State) (c : Bool) : s.advance.skipIf c = s.setPc (skipTarget s c) := by
  cases c with
  | false => rfl
  | true =>
    have h : BitVec.ofNat 16 (s.advance.pc.toNat + 2) = BitVec.ofNat 16 (s.pc.toNat + 4) := by
      rw [State.advance_pc]; bv_omega
    exact congrArg (fun p => ({ s with pc := p } : State)) h

theorem setV_reg_self (s : State) (x : RegIx) : s.setV x (s.reg x) = s := by
  simp [State.setV, State.reg_eq]

theorem execLdVxK_eq (x : RegIx) (s : State) : execLdVxK x s = .next (s.advance.setV x (polledKey s x)) := by
  unfold execLdVxK polledKey
  cases s.lowestKey with
  | some k => rfl
  | none => exact congrArg Host.Outcome.next (setV_reg_self s.advance x).symm

/-- An instruction that raises no fault goes to the state it completes in. -/
theorem exec_of_completes {i : Instr} {s : State} (h : raised i s = none) : exec i s = .next (completed i s) := by
  cases i with
  | call nnn =>
    have hsp : s.sp.val < 16 := by simpa [raised] using h
    have hs : Fin.ofNat 17 (s.sp.val + 1) = (⟨s.sp.val + 1, by omega⟩ : Fin 17) :=
      Fin.ext (Nat.mod_eq_of_lt (by omega))
    have hset : s.stack.setIfInBounds s.sp.val s.advance.pc = s.stack.set s.sp.val s.advance.pc hsp := by
      ext j hj
      rw [Vector.getElem_setIfInBounds, Vector.getElem_set]
    simp only [exec, execCall, completed, hs, hset]
    rw [push_ok (s := s.advance) hsp]
    rfl
  | ret =>
    have hsp : s.sp.val ≠ 0 := by simpa [raised] using h
    simp only [exec, execRet]
    rw [pop_ok (s := s.advance) hsp]
    simp [complete, completed, State.setPc, State.advance]
  | seImm x nn | sneImm x nn | seReg x y | sneReg x y => exact congrArg Host.Outcome.next (advance_skipIf s _)
  | skp x | sknp x =>
    have hk : ¬ 0xF < (s.reg x).toNat := by simpa [raised, keyFault] using h
    simp only [exec, execSkp, execSknp, readKey, hk, if_false]
    exact congrArg Host.Outcome.next (advance_skipIf s _)
  | ldVxK x => exact execLdVxK_eq x s
  | drw x y n =>
    simp only [exec, execDrw, readBytes_of_goesOn (dataFault_eq_none.mp h)]
    rfl
  | ldB x =>
    simp only [exec, execLdB, writeBytes_of_goesOn (bs := bcdDigits (s.reg x)) (dataFault_eq_none.mp h)]
    rfl
  | storeRegs x =>
    have hg : accessGoesOn s (s.vUpTo x).length := by rw [length_vUpTo]; exact dataFault_eq_none.mp h
    simp only [exec, execStoreRegs, writeBytes_of_goesOn hg]
    rfl
  | loadRegs x =>
    simp only [exec, execLoadRegs, readBytes_of_goesOn (dataFault_eq_none.mp h)]
    rfl
  | _ => rfl

/-- An instruction that raises a fault halts the block on it, its own word in the record. -/
theorem exec_of_raised {i : Instr} {s : State} {r : Raised} (h : raised i s = some r) :
    exec i s = .next (enterFault s (some (encode i)) r) := by
  cases i with
  | call nnn =>
    obtain ⟨hsp, rfl⟩ : s.sp.val = 16 ∧ r = ⟨.stackOverflow, 16⟩ := by
      have hlt := s.sp.isLt
      simp only [raised] at h
      split at h
      · cases h
      · cases h; exact ⟨by omega, rfl⟩
    simp only [exec, execCall]
    rw [push_full (s := s.advance) hsp]
    rfl
  | ret =>
    obtain ⟨hsp, rfl⟩ : s.sp.val = 0 ∧ r = ⟨.stackUnderflow, 0⟩ := by
      simpa [raised, eq_comm] using h
    simp only [exec, execRet]
    rw [pop_empty (s := s.advance) hsp]
    rfl
  | skp x | sknp x =>
    obtain ⟨hk, rfl⟩ := keyFault_eq_some.mp h
    simp only [exec, execSkp, execSknp, readKey, hk, if_true]
    rfl
  | drw x y n =>
    obtain ⟨hf, rfl⟩ := dataFault_eq_some.mp h
    simp only [exec, execDrw, readBytes_of_faults hf]
    rfl
  | ldB x =>
    obtain ⟨hf, rfl⟩ := dataFault_eq_some.mp h
    simp only [exec, execLdB, writeBytes_of_faults (bs := bcdDigits (s.reg x)) hf]
    rfl
  | storeRegs x =>
    obtain ⟨hf, rfl⟩ := dataFault_eq_some.mp h
    rw [← length_vUpTo s x] at hf
    simp only [exec, execStoreRegs, writeBytes_of_faults hf]
    rfl
  | loadRegs x =>
    obtain ⟨hf, rfl⟩ := dataFault_eq_some.mp h
    simp only [exec, execLoadRegs, readBytes_of_faults hf]
    rfl
  | _ => cases h

/-- Everything an instruction can do. -/
theorem exec_cases (i : Instr) (s : State) :
    (raised i s = none ∧ exec i s = .next (completed i s)) ∨
      ∃ r, raised i s = some r ∧ exec i s = .next (enterFault s (some (encode i)) r) := by
  cases h : raised i s with
  | none => exact .inl ⟨rfl, exec_of_completes h⟩
  | some r => exact .inr ⟨r, rfl, exec_of_raised h⟩

end Sys2Proof.Machine
end

section
/-! SUPPORT. What every instruction keeps: the pieces of state and the general registers it does not write. -/

namespace Sys2Proof.Machine

/-! ### Pieces of the state -/

theorem stored_keeps (s : State) (bs : List Byte) : KeepsAllBut [.pc, .mem, .events] s (s.stored bs) :=
  ((advance_keeps s).trans (setMem_keeps _ _)).trans (emitAll_keeps _ _)

theorem setV_advance_keeps (s : State) (x : RegIx) (b : Byte) : KeepsAllBut [.pc, .v] s (s.advance.setV x b) :=
  (advance_keeps s).trans (setV_keeps _ x b)

theorem setFlag_setV_keeps (s : State) (f : Bool) (x : RegIx) (b : Byte) :
    KeepsAllBut [.pc, .v] s ((s.advance.setFlag f).setV x b) :=
  (((advance_keeps s).trans (setFlag_keeps _ f)).trans (setV_keeps _ x b)).mono (by simp)

/-- An instruction that completes changes, PC apart, only the pieces it may write (10_state.md R33, R35, R44, R51, R55). -/
theorem completed_keeps (i : Instr) (s : State) : KeepsAllBut (.pc :: writes i) s (completed i s) := by
  cases i with
  | cls => exact ((advance_keeps s).trans (setFb_keeps _ _)).trans (emitFrame_keeps _)
  | ret | call _ => intro p hp; cases p <;> simp_all [Part.same, writes, completed]
  | jp _ | jpV0 _ | seImm _ _ | sneImm _ _ | seReg _ _ | sneReg _ _ | skp _ | sknp _ => exact setPc_keeps s _
  | ldImm x _ | addImm x _ | ldReg x _ | orReg x _ | andReg x _ | xorReg x _ | ldVxDt x | ldVxK x =>
    exact setV_advance_keeps s x _
  | addReg x _ | sub x _ | shr x _ | subn x _ | shl x _ => exact setFlag_setV_keeps s _ x _
  | rnd x _ => exact (((advance_keeps s).trans (rand8_keeps _)).trans (setV_keeps _ x _)).mono (by simp [writes])
  | drw x y n =>
    exact (((((advance_keeps s).trans (emitAll_keeps _ _)).trans (setFb_keeps _ _)).trans (setFlag_keeps _ _)).trans
      (emitFrame_keeps _)).mono (by simp [writes])
  | ldI _ | addI _ | ldF _ => exact (advance_keeps s).trans (setI_keeps _ _)
  | ldDtVx _ => exact (advance_keeps s).trans (setDt_keeps _ _)
  | ldStVx _ => exact (advance_keeps s).trans (setSt_keeps _ _)
  | ldB x => exact stored_keeps s _
  | storeRegs x => exact ((stored_keeps s _).trans (setI_keeps _ _)).mono (by simp [writes])
  | loadRegs x =>
    exact ((((advance_keeps s).trans (emitAll_keeps _ _)).trans (setVList_keeps _ _)).trans (setI_keeps _ _)).mono
      (by simp [writes])

/-- Settles O40: what completes keeps all it may not write, and what raises enters the fault with its own word. -/
theorem onlyItsPiecesAreWritten : Obligations.OnlyItsPiecesAreWritten := by
  intro i s
  rcases exec_cases i s with ⟨-, h⟩ | ⟨r, hr, h⟩
  · exact ⟨_, h, .inl (completed_keeps i s)⟩
  · exact ⟨_, h, .inr ⟨r.code, r.info, (raised_spec hr).1, enterFault_haltsWith s _ r⟩⟩

/-! ### General registers -/

/-- Bytes loaded from memory reach the registers up to Vx alone. -/
theorem setVList_keepsRegs (s : State) (bs : List Byte) :
    KeepsRegsBut ((List.finRange 16).filter fun r => decide (r.val < bs.length)) s (s.setVList bs) := by
  intro r hr
  have hlen : bs.length ≤ r.val := by simpa using hr
  rw [State.reg_setVList, List.getD_eq_default _ _ hlen]

theorem setFlag_setV_keepsRegs (s : State) (f : Bool) (x : RegIx) (b : Byte) :
    KeepsRegsBut [regF, x] s ((s.advance.setFlag f).setV x b) :=
  (setFlag_keepsRegs s.advance f).trans (setV_keepsRegs _ x b)

/-- An instruction that completes changes only the registers the table of R33 lets it write. -/
theorem completed_keepsRegs (i : Instr) (s : State) : KeepsRegsBut (writesRegs i) s (completed i s) := by
  cases i with
  | ldImm x _ | addImm x _ | ldReg x _ | orReg x _ | andReg x _ | xorReg x _ | ldVxDt x | ldVxK x =>
    exact setV_keepsRegs s.advance x _
  | rnd x _ => exact setV_keepsRegs s.advance.rand8.2 x _
  | addReg x _ | sub x _ | shr x _ | subn x _ | shl x _ => exact setFlag_setV_keepsRegs s _ x _
  | drw x y n => exact setFlag_keepsRegs ((s.advance.emitAll _).setFb _) _
  | loadRegs x =>
    have h := setVList_keepsRegs (s.advance.emitAll (ignoredEvents s (x.val + 1))) (dataBytes s (x.val + 1))
    simp only [dataBytes, List.length_map, List.length_range, Nat.lt_succ_iff] at h
    exact h
  | _ => exact (completed_keeps _ s).keepsRegs (by simp [writes]) _

/-- Settles O41: a fault keeps every register, and what completes keeps those that are not its own. -/
theorem onlyItsRegistersAreWritten : Obligations.OnlyItsRegistersAreWritten := by
  intro i s
  rcases exec_cases i s with ⟨-, h⟩ | ⟨r, -, h⟩
  · exact ⟨_, h, completed_keepsRegs i s⟩
  · exact ⟨_, h, fun _ _ => rfl⟩

end Sys2Proof.Machine
end

section
/-! SUPPORT. What no instruction reads: the sound timer (10_state.md R45) and the event stream (R58). Both are replaced at
once, and every instruction goes on alike. -/

namespace Sys2Proof.Machine

/-- The state with another sound timer and another event stream. -/
def State.withOutputs (s : State) (b : Byte) (es : List Event) : State := { s with st := b, events := es }

/-- A fault does not depend on the sound timer or the events. -/
theorem raised_withOutputs (i : Instr) (s : State) (b : Byte) (es : List Event) :
    raised i (s.withOutputs b es) = raised i s := by
  cases i <;> rfl

/-- An instruction that completes appends the same events and treats the sound timer alike, whatever the two held; all
else it leaves does not depend on them. -/
theorem completed_withOutputs (i : Instr) (s : State) :
    ∃ (t : State) (timer : Byte → Byte) (new : List Event), ∀ b es,
      completed i (s.withOutputs b es) = t.withOutputs (timer b) (es ++ new) := by
  have silent : (∀ b es, completed i (s.withOutputs b es) = (completed i s).withOutputs b es) →
      ∃ (t : State) (timer : Byte → Byte) (new : List Event), ∀ b es,
        completed i (s.withOutputs b es) = t.withOutputs (timer b) (es ++ new) :=
    fun h => ⟨completed i s, id, [], fun b es => by rw [List.append_nil]; exact h b es⟩
  cases i with
  | cls => exact ⟨completed .cls s, id, [.frameUpdated Frame.clear], fun _ _ => rfl⟩
  | drw x y n =>
    refine ⟨completed (.drw x y n) s, id,
      ignoredEvents s n.toNat ++ [.frameUpdated (drawnCanvas x y n.toNat s).fb], fun b es => ?_⟩
    rw [← List.append_assoc]
    rfl
  | ldStVx x =>
    exact ⟨completed (.ldStVx x) s, fun _ => s.reg x, [], fun b es => by rw [List.append_nil]; rfl⟩
  | ldB x => exact ⟨completed (.ldB x) s, id, ignoredEvents s 3, fun _ _ => rfl⟩
  | storeRegs x =>
    exact ⟨completed (.storeRegs x) s, id, ignoredEvents s (s.vUpTo x).length, fun _ _ => rfl⟩
  | loadRegs x => exact ⟨completed (.loadRegs x) s, id, ignoredEvents s (x.val + 1), fun _ _ => rfl⟩
  | _ => exact silent fun _ _ => rfl

/-- So does every instruction, a fault that it raises included. -/
theorem exec_withOutputs (i : Instr) (s : State) :
    ∃ (t : State) (timer : Byte → Byte) (new : List Event), ∀ b es,
      exec i (s.withOutputs b es) = .next (t.withOutputs (timer b) (es ++ new)) := by
  cases hr : raised i s with
  | none =>
    obtain ⟨t, timer, new, h⟩ := completed_withOutputs i s
    refine ⟨t, timer, new, fun b es => ?_⟩
    rw [exec_of_completes ((raised_withOutputs i s b es).trans hr), h]
  | some r =>
    refine ⟨enterFault s (some (encode i)) r, id, [], fun b es => ?_⟩
    rw [exec_of_raised ((raised_withOutputs i s b es).trans hr), List.append_nil]
    rfl

/-- Settles O42: the same instruction with another sound timer, the events left as they are. -/
theorem soundTimerIsNeverRead : Obligations.SoundTimerIsNeverRead := by
  intro i s b
  obtain ⟨t, timer, new, h⟩ := exec_withOutputs i s
  refine ⟨_, _, h s.st s.events, h b s.events, ?_⟩
  exact setSt_keeps (t.withOutputs (timer s.st) (s.events ++ new)) (timer b)

/-- Settles O43: the same instruction with another event stream, the sound timer left as it is. -/
theorem eventsAreNeverRead : Obligations.EventsAreNeverRead := by
  intro i s es
  obtain ⟨t, timer, new, h⟩ := exec_withOutputs i s
  exact ⟨_, new, h s.st s.events, rfl, h s.st es⟩

end Sys2Proof.Machine
end

section
/-! SUPPORT. The stack over several instructions: a CALL and its RET, and CALLs nested to the depth of the stack. -/

namespace Sys2Proof.Machine

/-- CALL with a slot free (41_control_flow.md R162). -/
theorem exec_call_of_free {nnn : Addr} {s : State} (h : s.sp.val < 16) :
    exec (.call nnn) s = .next (completed (.call nnn) s) :=
  exec_of_completes (by simp [raised, h])

theorem completed_call_sp {nnn : Addr} {s : State} (h : s.sp.val < 16) :
    (completed (.call nnn) s).sp.val = s.sp.val + 1 :=
  Nat.mod_eq_of_lt (by omega)

/-- RET with a slot occupied (41_control_flow.md R160). -/
theorem exec_ret_of_occupied {s : State} (h : s.sp.val ≠ 0) : exec .ret s = .next (completed .ret s) :=
  exec_of_completes (by simp [raised, h])

/-- Settles O18: the slot the CALL pushed is the one the RET pops. -/
theorem callThenReturnResumes : Obligations.CallThenReturnResumes := by
  intro nnn s hsp
  refine ⟨_, exec_call_of_free hsp, fun t' hsp' hstack => ?_⟩
  have hval : t'.sp.val = s.sp.val + 1 := by rw [hsp', completed_call_sp hsp]
  refine ⟨_, exec_ret_of_occupied (by omega), ?_, Fin.ext ?_, completed_keeps .ret t'⟩
  · have hpc : t'.stack[s.sp.val] = s.advance.pc := by simp [hstack, completed]
    simp only [completed, hval, Nat.add_sub_cancel]
    rw [hpc, State.advance_pc_add]
  · exact Nat.sub_eq_of_eq_add hval

/-- CALLs that the stack has room for succeed one after another, SP counting them. -/
theorem execAll_calls_free (targets : List Addr) (s : State) (hr : s.status = .running)
    (hroom : s.sp.val + targets.length ≤ 16) :
    ∃ t, execAll (targets.map .call) s = .next t ∧ t.status = .running ∧ t.sp.val = s.sp.val + targets.length := by
  induction targets generalizing s with
  | nil => exact ⟨s, rfl, hr, rfl⟩
  | cons nnn rest ih =>
    rw [List.length_cons] at hroom
    have hsp : s.sp.val < 16 := by omega
    have hsp' := completed_call_sp (nnn := nnn) hsp
    obtain ⟨t, ht, htr, htsp⟩ := ih (completed (.call nnn) s) hr (by omega)
    refine ⟨t, ?_, htr, by rw [List.length_cons]; omega⟩
    simpa [execAll, exec_call_of_free hsp] using ht

/-- One CALL more than the stack has room for halts the block with StackOverflow. -/
theorem execAll_calls_overflow (targets : List Addr) (s : State) (hone : s.sp.val + targets.length = 17) :
    ∃ t r, execAll (targets.map .call) s = .next t ∧ t.status = .halted ∧ t.sp.val = 16 ∧ t.fault = some r ∧
      r.code = .stackOverflow ∧ r.info = 16 := by
  induction targets generalizing s with
  | nil => have := s.sp.isLt; simp at hone; omega
  | cons nnn rest ih =>
    rw [List.length_cons] at hone
    by_cases hsp : s.sp.val < 16
    · have hsp' := completed_call_sp (nnn := nnn) hsp
      obtain ⟨t, r, ht, hrest⟩ := ih (completed (.call nnn) s) (by omega)
      exact ⟨t, r, by simpa [execAll, exec_call_of_free hsp] using ht, hrest⟩
    · have hlast : rest = [] := List.eq_nil_of_length_eq_zero (by omega)
      have hfull : exec (.call nnn) s = .next (enterFault s (some (encode (.call nnn))) ⟨.stackOverflow, 16⟩) :=
        exec_of_raised (by simp [raised, hsp])
      subst hlast
      refine ⟨enterFault s (some (encode (.call nnn))) ⟨.stackOverflow, 16⟩, _, ?_, rfl, ?_, rfl, rfl, rfl⟩
      · simp only [List.map, execAll, hfull]
      · simp only [List.length_nil] at hone
        rw [enterFault_sp]
        omega

/-- Settles O19, by induction on the call targets from any number of occupied slots. -/
theorem sixteenCallsNest : Obligations.SixteenCallsNest := by
  intro s targets hr hsp
  constructor
  · intro hlen
    obtain ⟨t, ht, htr, htsp⟩ := execAll_calls_free targets s hr (by omega)
    exact ⟨t, ht, htr, by omega⟩
  · intro hlen
    exact execAll_calls_overflow targets s (by omega)

end Sys2Proof.Machine
end

section
/-! SUPPORT. The invariant of the block: it holds at reset, a Running state has it as soon as its memory, PC and slots are
in bounds, and every step keeps it. -/

namespace Sys2Proof.Machine

/-! ### Reset -/

/-- Settles O51, field by field; unlisted addresses read as the font and zeros. -/
theorem resetHoldsInitialValues : Obligations.ResetHoldsInitialValues := by
  refine ⟨fun r => ?_, rfl, rfl, rfl, fun j => ?_, rfl, rfl, rfl, rfl, rfl, rfl, rfl, fun x y => ?_, fun a => ?_,
    fun a ha => unlistedByte_of_le ha⟩
  · exact Vector.getElem_replicate r.isLt
  · exact Vector.getElem_replicate j.isLt
  · rw [Frame.pixel, show State.reset.fb[y.val] = 0 from Vector.getElem_replicate y.isLt]
    exact BitVec.getLsbD_zero
  · exact dif_pos a.isLt

/-- A state that is Running without a fault record satisfies the invariant as soon as its memory, PC and slots do. -/
theorem State.Inv.of_running {s : State} (hmem : s.mem.wf = true) (hpc : s.pc.toNat ≤ 0x10FE)
    (hslots : ∀ j : Fin 16, (s.stack[j.val]).toNat ≤ 0x1000) (hr : s.status = .running) (hf : s.fault = none) : s.Inv :=
  ⟨hmem, hpc, hslots, fun _ => hr, by rw [FaultAgrees, hr]; exact hf⟩

/-- A Running state that satisfies the invariant has no fault record. -/
theorem State.Inv.fault_none {s : State} (hs : s.Inv) (hr : s.status = .running) : s.fault = none := by
  have h := hs.faultAgrees
  rw [FaultAgrees, hr] at h
  exact h

/-- Settles O53: reset is Running without a fault record, its memory lists nothing and its slots are 0. -/
theorem resetSatisfiesInvariant : Obligations.ResetSatisfiesInvariant :=
  .of_running Memory.wf_reset (by decide) (by decide) rfl rfl

/-! ### What an instruction leaves -/

theorem stored_mem_wf {s : State} (bs : List Byte) (h : s.mem.wf = true) : (s.stored bs).mem.wf = true := by
  refine Memory.wf_writeList _ ?_ h
  have hi := s.i.isLt
  rw [List.length_take, Config.memSize]
  omega

/-- Only FX33 and FX55 write memory, and they store inside the address space. -/
theorem completed_mem_wf (i : Instr) {s : State} (h : s.mem.wf = true) : (completed i s).mem.wf = true := by
  cases i with
  | ldB x => exact stored_mem_wf (bcdDigits (s.reg x)) h
  | storeRegs x => exact stored_mem_wf (s.vUpTo x) h
  | _ => exact h

theorem advance_pc_toNat {s : State} (h : s.pc.toNat ≤ 0xFFE) : s.advance.pc.toNat = s.pc.toNat + 2 := by
  rw [State.advance_pc, BitVec.toNat_ofNat]
  omega

/-- Only CALL writes the stack, and what it pushes is at most 0x1000 (10_state.md R41). -/
theorem completed_slots_le (i : Instr) {s : State} (hpc : s.pc.toNat ≤ 0xFFE)
    (h : ∀ j : Fin 16, (s.stack[j.val]).toNat ≤ 0x1000) (j : Fin 16) :
    ((completed i s).stack[j.val]).toNat ≤ 0x1000 := by
  cases i with
  | call nnn =>
    simp only [completed]
    rw [Vector.getElem_setIfInBounds]
    split
    · rw [advance_pc_toNat hpc]; omega
    · exact h j
  | _ => exact h j

theorem skipTarget_le (s : State) (c : Bool) : skipTarget s c ≤ s.pc.toNat + 4 := by
  cases c <;> simp [skipTarget]

theorem setPc_pc_le {s : State} {n b : Nat} (h : n ≤ b) : (s.setPc n).pc.toNat ≤ b := by
  rw [State.setPc_pc, BitVec.toNat_ofNat]
  exact (Nat.mod_le _ _).trans h

/-- The highest target is BNNN's, 0xFFF + 0xFF (10_state.md R36). -/
theorem completed_pc_le (i : Instr) {s : State} (hpc : s.pc.toNat ≤ 0xFFE)
    (hslots : ∀ j : Fin 16, (s.stack[j.val]).toNat ≤ 0x1000) : (completed i s).pc.toNat ≤ 0x10FE := by
  cases i with
  | jp nnn | call nnn =>
    have hn := nnn.isLt
    exact setPc_pc_le (s := s) (by omega)
  | jpV0 nnn =>
    have hn := nnn.isLt
    have hv := (s.reg 0).isLt
    exact setPc_pc_le (by rw [jumpTarget]; omega)
  | ret => exact (hslots ⟨s.sp.val - 1, by omega⟩).trans (by omega)
  | seImm _ _ | sneImm _ _ | seReg _ _ | sneReg _ _ | skp _ | sknp _ =>
    exact setPc_pc_le ((skipTarget_le s _).trans (by omega))
  | _ => exact (advance_pc_toNat hpc).trans_le (by omega)

/-- An instruction that completes keeps the invariant of a Running block. -/
theorem completed_inv (i : Instr) {s : State} (hs : s.Inv) (hr : s.status = .running) (hpc : s.pc.toNat ≤ 0xFFE) :
    (completed i s).Inv := by
  have hkeeps := completed_keeps i s
  have hstatus : (completed i s).status = s.status := hkeeps .status (by cases i <;> simp [writes])
  have hfault : (completed i s).fault = s.fault := hkeeps .fault (by cases i <;> simp [writes])
  exact .of_running (completed_mem_wf i hs.memCanonical) (completed_pc_le i hpc hs.slotBound)
    (completed_slots_le i hpc hs.slotBound) (hstatus.trans hr) (hfault.trans (hs.fault_none hr))

/-! ### Faults -/

/-- Taking a fault keeps the invariant: the tick ends, and the record names PC. -/
theorem enterFault_inv {s : State} (hs : s.Inv) (w : Option Word) {r : Raised} (hr : r.Fits) : (enterFault s w r).Inv :=
  ⟨hs.memCanonical, hs.pcBound, hs.slotBound, fun h => absurd rfl h, ⟨_, rfl, rfl, hr⟩⟩

/-! ### The instruction step -/

theorem fetchRead_ok {a : Nat} {s : State} {b : Byte} (h : fetchRead a s = .ok b) : a ≤ 0xFFF := by
  unfold fetchRead at h
  split at h
  · next ha => exact ha
  · cases h

theorem fetchRead_error_fits {a : Nat} {s : State} {r : Raised} (h : fetchRead a s = .error r) : r.Fits := by
  unfold fetchRead at h
  split at h
  · cases h
  · next ha => cases h; exact .inl ⟨rfl, Nat.not_le.mp ha⟩

/-- A fetch succeeds at most at 0xFFE (40_pipeline.md R131). -/
theorem pc_le_of_fetch_ok {s : State} {w : Word} (h : fetch s = .ok w) : s.pc.toNat ≤ 0xFFE := by
  unfold fetch at h
  split at h
  · cases h
  · split at h
    · cases h
    · next hlo => have := fetchRead_ok hlo; omega

theorem fetch_error_fits {s : State} {r : Raised} (h : fetch s = .error r) : r.Fits := by
  unfold fetch at h
  split at h
  · next hhi => cases h; exact fetchRead_error_fits hhi
  · split at h
    · next hlo => cases h; exact fetchRead_error_fits hlo
    · cases h

theorem execUnknown_inv {s : State} (hs : s.Inv) (hr : s.status = .running) (hpc : s.pc.toNat ≤ 0xFFE) (w : Word) :
    (execUnknown w s).Inv :=
  .of_running hs.memCanonical ((advance_pc_toNat hpc).trans_le (by omega)) hs.slotBound hr (hs.fault_none hr)

theorem exec_inv {i : Instr} {s t : State} (hs : s.Inv) (hr : s.status = .running) (hpc : s.pc.toNat ≤ 0xFFE)
    (h : exec i s = .next t) : t.Inv := by
  rcases exec_cases i s with ⟨-, he⟩ | ⟨r, hraised, he⟩
  · cases he.symm.trans h
    exact completed_inv i hs hr hpc
  · cases he.symm.trans h
    exact enterFault_inv hs _ (raised_spec hraised).2

/-- An instruction step keeps the invariant of a Running block: it faults in the fetch, executes, or skips an unknown
word. -/
theorem stepInstr_inv {s t : State} (hs : s.Inv) (hr : s.status = .running) (h : stepInstr s = .next t) : t.Inv := by
  rcases stepInstr_running hr with ⟨r, hf, he⟩ | ⟨w, i, hf, -, he⟩ | ⟨w, w', hf, -, he⟩
  · cases he.symm.trans h
    exact enterFault_inv hs none (fetch_error_fits hf)
  · exact exec_inv hs hr (pc_le_of_fetch_ok hf) (he.symm.trans h)
  · cases he.symm.trans h
    exact execUnknown_inv hs hr (pc_le_of_fetch_ok hf) w'

/-! ### The scheduler and the host's calls -/

/-- The invariant does not read the phase of a Running block. -/
theorem State.Inv.withPhase {s : State} (hs : s.Inv) (hr : s.status = .running) (p : Phase) :
    State.Inv { s with phase := p } :=
  .of_running hs.memCanonical hs.pcBound hs.slotBound hr (hs.fault_none hr)

/-- The invariant does not read the pending calls. -/
theorem State.Inv.withCalls {s : State} (hs : s.Inv) (cs : List HostCall) : State.Inv { s with calls := cs } :=
  ⟨hs.memCanonical, hs.pcBound, hs.slotBound, hs.tickRunning, hs.faultAgrees⟩

theorem endTick_inv {s : State} (hs : s.Inv) : (endTick s).Inv :=
  ⟨hs.memCanonical, hs.pcBound, hs.slotBound, fun h => absurd rfl h, hs.faultAgrees⟩

theorem startTick_inv {s : State} (hs : s.Inv) (k : Nat) (keys : BitVec 16) : (startTick k keys s).Inv := by
  unfold startTick
  split
  · next hr => exact .of_running hs.memCanonical hs.pcBound hs.slotBound hr (hs.fault_none hr)
  · exact hs

/-- What `loadCheck` answers says how long the ROM is (70_reset_and_hazards.md R402). -/
theorem loadCheck_cases (rom : List Byte) :
    loadCheck rom = .romEmpty ∧ rom.length = 0 ∨ loadCheck rom = .romTooLarge ∧ Config.romMaxLen < rom.length ∨
      loadCheck rom = .ok ∧ rom.length ≤ Config.romMaxLen := by
  unfold loadCheck
  split_ifs with hempty hlarge
  · exact .inl ⟨rfl, hempty⟩
  · exact .inr (.inl ⟨rfl, hlarge⟩)
  · exact .inr (.inr ⟨rfl, Nat.not_lt.mp hlarge⟩)

theorem zeroed_inv (s : State) : (zeroed s).Inv :=
  .of_running (memReset_wf s.font) resetSatisfiesInvariant.pcBound resetSatisfiesInvariant.slotBound rfl rfl

theorem failLoad_inv {s : State} (hs : s.Inv) (hphase : s.phase = .boundary) {code : FaultCode} {rom : List Byte}
    (hcode : code = .romEmpty ∧ rom.length = 0 ∨ code = .romTooLarge ∧ Config.romMaxLen < rom.length) :
    (failLoad code rom s).Inv :=
  ⟨hs.memCanonical, hs.pcBound, hs.slotBound, fun h => absurd hphase h, fun r hr => by cases hr; exact ⟨rfl, rfl, hcode⟩⟩

/-- `init` establishes the invariant, whatever the state was. -/
theorem initRom_inv (rom : List Byte) (s : State) : (initRom rom s).Inv := by
  have hz := zeroed_inv s
  unfold initRom
  rcases loadCheck_cases rom with ⟨hc, hlen⟩ | ⟨hc, hlen⟩ | ⟨hc, hlen⟩ <;> rw [hc]
  · exact failLoad_inv hz rfl (.inl ⟨rfl, hlen⟩)
  · exact failLoad_inv hz rfl (.inr ⟨rfl, hlen⟩)
  · have hfits : Config.programBase + rom.length ≤ Config.memSize := by
      simp only [Config.romMaxLen, Config.programBase, Config.memSize] at hlen ⊢
      omega
    exact .of_running (Memory.wf_writeList rom hfits hz.memCanonical) hz.pcBound hz.slotBound rfl rfl

theorem serve_inv {s : State} (hs : s.Inv) (c : HostCall) : (serve c s).Inv := by
  cases c with
  | init rom => exact initRom_inv rom s
  | tick k keys => exact startTick_inv hs k keys

/-- Settles O54: each of the four moves of the block keeps the invariant. -/
theorem stepKeepsInvariant : Obligations.StepKeepsInvariant := by
  intro s t hs h
  rcases step_next h with ⟨-, hr, hi⟩ | ⟨n, -, hr, hi⟩ | ⟨-, rfl⟩ | ⟨c, cs, -, -, rfl⟩
  · exact stepInstr_inv hs hr hi
  · exact stepInstr_inv (hs.withPhase hr (.steps n)) hr hi
  · exact endTick_inv hs
  · exact serve_inv (hs.withCalls cs) c

end Sys2Proof.Machine
end

section
/-! SUPPORT. The fetch by where PC stands (20_memory.md R75, R76): the two bytes at PC up to 0xFFE, a fault above it; and
the instruction step that follows. -/

namespace Sys2Proof.Machine

/-! ### The fetch -/

theorem fetchRead_of_le {a : Nat} {s : State} (h : a ≤ 0xFFF) : fetchRead a s = .ok (s.mem.read a) := if_pos h

theorem fetchRead_of_gt {a : Nat} {s : State} (h : 0xFFF < a) : fetchRead a s = .error ⟨.memoryBounds, a⟩ :=
  if_neg (Nat.not_le.mpr h)

/-- Up to 0xFFE the fetch gives the two bytes at PC, high byte first. -/
theorem fetch_of_le {s : State} (h : s.pc.toNat ≤ 0xFFE) :
    fetch s = .ok (s.mem.read s.pc.toNat ++ s.mem.read (s.pc.toNat + 1)) := by
  simp only [fetch, fetchRead_of_le (show s.pc.toNat ≤ 0xFFF by omega),
    fetchRead_of_le (show s.pc.toNat + 1 ≤ 0xFFF by omega)]

/-- Above 0xFFE the fetch raises at the first of its two addresses that is above 0xFFF, whatever the bounds policy. -/
theorem fetch_of_gt {s : State} (h : 0xFFE < s.pc.toNat) :
    fetch s = .error ⟨.memoryBounds, if s.pc.toNat = 0xFFF then 0x1000 else s.pc.toNat⟩ := by
  by_cases hpc : s.pc.toNat = 0xFFF
  · simp only [fetch, hpc, fetchRead_of_le (show 0xFFF ≤ 0xFFF by decide),
      fetchRead_of_gt (show 0xFFF < 0xFFF + 1 by decide), if_true]
  · simp only [fetch, fetchRead_of_gt (show 0xFFF < s.pc.toNat by omega), hpc, if_false]

/-! ### The instruction step -/

/-- In a tick whose number of steps is open, every step is an instruction step. -/
theorem step_of_unbounded {s : State} (h : s.phase = .unbounded) : step s = stepInstr s := by
  simp only [step, move, h]

/-- A fetch fault is taken without a word (60_exceptions.md R353). -/
theorem stepInstr_of_fetch_error {s : State} {r : Raised} (hr : s.status = .running) (hf : fetch s = .error r) :
    stepInstr s = .next (enterFault s none r) := by
  simp only [stepInstr, hr, hf, if_true]

/-- A Running block whose two bytes at PC decode to an instruction executes it (40_pipeline.md R130). -/
theorem stepInstr_of_known {s : State} {i : Instr} (hr : s.status = .running) (hpc : s.pc.toNat ≤ 0xFFE)
    (hd : decode (s.mem.read s.pc.toNat ++ s.mem.read (s.pc.toNat + 1)) = .known i) : stepInstr s = exec i s := by
  simp only [stepInstr, hr, fetch_of_le hpc, hd, if_true]

/-- Settles O8: the fetch raises, and fault entry changes nothing but status, record and phase. -/
theorem fetchPastTopHalts : Obligations.FetchPastTopHalts := by
  intro s hr hphase hpc
  have hstep := (step_of_unbounded hphase).trans (stepInstr_of_fetch_error hr (fetch_of_gt hpc))
  exact ⟨_, hstep, enterFault_haltsWith s none _⟩

end Sys2Proof.Machine
end

section
/-! SUPPORT. Code as data (20_memory.md R88): what FX55 stored is what the next fetch reads. -/

namespace Sys2Proof.Machine

/-- V0..Vx listed in order. -/
theorem getD_vUpTo (s : State) {x r : RegIx} (h : r ≤ x) : (s.vUpTo x).getD r.val 0 = s.reg r := by
  have hr : r.val < x.val + 1 := Nat.lt_succ_of_le h
  simp [State.vUpTo, State.reg_eq, hr]

/-- Every byte of memory after FX55 (43_index_memory.md R254). -/
theorem completed_storeRegs_read (x : RegIx) (s : State) (a : Nat) :
    (completed (.storeRegs x) s).mem.read a =
      if s.i.toNat ≤ a ∧ a < s.i.toNat + (x.val + 1) ∧ a ≤ 0xFFF then (s.vUpTo x).getD (a - s.i.toNat) 0
      else s.mem.read a := by
  rw [← length_vUpTo s x]
  exact read_writeList_take s.mem s.i.toNat a (s.vUpTo x)

/-- Inside the address space FX55 leaves Vr at the address r bytes on from I. -/
theorem completed_storeRegs_read_reg {x r : RegIx} {s : State} (h : r ≤ x) (ha : s.i.toNat + r.val ≤ 0xFFF) :
    (completed (.storeRegs x) s).mem.read (s.i.toNat + r.val) = s.reg r := by
  have hr : r.val ≤ x.val := h
  rw [completed_storeRegs_read, if_pos (by omega), Nat.add_sub_cancel_left, getD_vUpTo s h]

/-- Settles O33: FX55 leaves V0 and V1 at the two addresses the next step fetches. -/
theorem storedWordIsExecutedNext : Obligations.StoredWordIsExecutedNext := by
  intro s i hr hphase hpc hhi hlo hi hd
  have hstore : step s = .next (completed (.storeRegs 1) s) := by
    have hword : decode (s.mem.read s.pc.toNat ++ s.mem.read (s.pc.toNat + 1)) = .known (.storeRegs 1) := by
      rw [hhi, hlo]; decide
    have hfits : accessGoesOn s 2 := .inl (by omega)
    rw [step_of_unbounded hphase, stepInstr_of_known hr (by omega) hword]
    exact exec_of_completes (dataFault_eq_none.mpr hfits)
  have hpc' : (completed (.storeRegs 1) s).pc.toNat = s.pc.toNat + 2 := advance_pc_toNat (by omega)
  have hv0 : (completed (.storeRegs 1) s).mem.read (s.pc.toNat + 2) = s.reg 0 := by
    rw [← hi]
    exact completed_storeRegs_read_reg (r := 0) (by decide) (show s.i.toNat + 0 ≤ 0xFFF by omega)
  have hv1 : (completed (.storeRegs 1) s).mem.read (s.pc.toNat + 2 + 1) = s.reg 1 := by
    rw [← hi]
    exact completed_storeRegs_read_reg (r := 1) (by decide) (show s.i.toNat + 1 ≤ 0xFFF by omega)
  refine ⟨_, hstore, hpc', ?_⟩
  rw [step_of_unbounded (s := completed (.storeRegs 1) s) hphase]
  refine stepInstr_of_known hr (by omega) ?_
  rw [hpc', hv0, hv1, hd]

end Sys2Proof.Machine
end

section
/-! SUPPORT. Words and their fields (30_encoding.md R101): a word is its fields put together again, a field as a number,
and the word of the opcode table's numbering. -/

namespace Sys2Proof

/-! ### A word put together from its own fields -/

/-- Two neighbouring parts of a word put together are the part that they cover. -/
theorem extract_append_extract {n : Nat} (w : BitVec n) (l a b : Nat) :
    w.extractLsb' (l + b) a ++ w.extractLsb' l b = w.extractLsb' l (a + b) := by
  apply BitVec.eq_of_getLsbD_eq
  intro k hk
  rw [getLsbD_pair, BitVec.getLsbD_extractLsb', BitVec.getLsbD_extractLsb', BitVec.getLsbD_extractLsb']
  by_cases h : k < b
  · simp [h, hk]
  · simp [h, hk, show k - b < a by omega, show l + b + (k - b) = l + k by omega]

theorem packNNN_fields (w : Word) : packNNN (fieldClass w) (fieldNNN w) = w :=
  (extract_append_extract w 0 4 12).trans BitVec.extractLsb'_eq_self

theorem regField_fieldX_append_fieldNN (w : Word) : regField (fieldX w) ++ fieldNN w = fieldNNN w :=
  extract_append_extract w 0 4 8

theorem regField_fieldY_append_fieldN (w : Word) : regField (fieldY w) ++ fieldN w = fieldNN w :=
  extract_append_extract w 0 4 4

theorem packXNN_fields (w : Word) : packXNN (fieldClass w) (fieldX w) (fieldNN w) = w := by
  rw [packXNN_eq, regField_fieldX_append_fieldNN, packNNN_fields]

theorem packXYN_fields (w : Word) : packXYN (fieldClass w) (fieldX w) (fieldY w) (fieldN w) = w := by
  rw [packXYN_eq, regField_fieldY_append_fieldN, packXNN_fields]

/-! The same, in the form in which the decoder knows the fields that it has compared. -/

theorem packNNN_of_fields {w : Word} {c : BitVec 4} {nnn : Addr} (hc : (fieldClass w).toNat = c.toNat)
    (hnnn : fieldNNN w = nnn) : packNNN c nnn = w := by
  rw [← BitVec.eq_of_toNat_eq hc, ← hnnn, packNNN_fields]

theorem packXNN_of_fields {w : Word} {c : BitVec 4} {nn : Byte} (hc : (fieldClass w).toNat = c.toNat)
    (hnn : fieldNN w = nn) : packXNN c (fieldX w) nn = w := by
  rw [← BitVec.eq_of_toNat_eq hc, ← hnn, packXNN_fields]

theorem packXYN_of_fields {w : Word} {c n : BitVec 4} (hc : (fieldClass w).toNat = c.toNat)
    (hn : (fieldN w).toNat = n.toNat) : packXYN c (fieldX w) (fieldY w) n = w := by
  rw [← BitVec.eq_of_toNat_eq hc, ← BitVec.eq_of_toNat_eq hn, packXYN_fields]

/-! ### Fields as numbers -/

theorem toNat_fieldClass (w : Word) : (fieldClass w).toNat = w.toNat / 4096 := by
  have := w.isLt
  simp only [fieldClass, BitVec.extractLsb'_toNat, Nat.shiftRight_eq_div_pow]
  omega

theorem toNat_fieldN (w : Word) : (fieldN w).toNat = w.toNat % 16 := by simp [fieldN]

theorem toNat_fieldNN (w : Word) : (fieldNN w).toNat = w.toNat % 256 := by simp [fieldNN]

theorem toNat_fieldNNN (w : Word) : (fieldNNN w).toNat = w.toNat % 4096 := by simp [fieldNNN]

/-- The opcode table numbers the bits of a word as the word does (00_scope.md R14). -/
theorem tableWord_toNat (w : Word) : tableWord 16 w.toNat = w := by
  rw [tableWord, Nat.mod_eq_of_lt w.isLt, BitVec.ofNat_toNat, BitVec.setWidth_eq]

end Sys2Proof
end

section
/-! SUPPORT. From an instruction to its word and back (30_encoding.md R104, R110). -/

namespace Sys2Proof

/-- The decoder finds in a packed word the class, then the secondary field of classes 5, 8, 9, E and F, that the encoder
put there, and reads back the operands. -/
theorem decode_encode (i : Instr) : decode (encode i) = .known i := by
  cases i with
  | cls | ret => decide
  | jp nnn | call nnn | ldI nnn | jpV0 nnn => simp [encode, decode]
  | seImm x nn | sneImm x nn | ldImm x nn | addImm x nn | rnd x nn => simp [encode, decode]
  | seReg x y | sneReg x y => simp [encode, decode]
  | drw x y n => simp [encode, decode]
  | ldReg x y | orReg x y | andReg x y | xorReg x y | addReg x y | sub x y | shr x y | subn x y | shl x y =>
    simp [encode, decode, decodeClass8]
  | skp x | sknp x => simp [encode, decode, decodeClassE]
  | ldVxDt x | ldVxK x | ldDtVx x | ldStVx x | addI x | ldF x | ldB x | storeRegs x | loadRegs x =>
    simp [encode, decode, decodeClassF]

/-- The two bytes of a word, high byte first, decode as the word does, and what follows is handed back. -/
theorem decodeBytes_of_known {w : Word} {i : Instr} (h : decode w = .known i) (rest : List Byte) :
    decodeBytes (hiByte w :: loByte w :: rest) = .ok (i, rest) := by
  simp only [decodeBytes, hiByte_append_loByte, h]

theorem decodeTableWord_of_known {w : Word} {i : Instr} (h : decode w = .known i) :
    decodeTableWord 16 w.toNat = some i := by
  simp only [decodeTableWord, tableWord_toNat, decodeBytes_of_known h]

/-- Settles O1: the decoder reads back every packed word, and both other forms rebuild the word first. -/
theorem decodeOfEncode : Obligations.DecodeOfEncode := fun i rest =>
  ⟨decode_encode i, decodeBytes_of_known (decode_encode i) rest, decodeTableWord_of_known (decode_encode i)⟩

/-- Settles O5: the eight words are closed, and the decoder computes. -/
theorem sampleWordsDecode : Obligations.SampleWordsDecode := by
  unfold Obligations.SampleWordsDecode
  decide

end Sys2Proof
end

section
/-! SUPPORT. What the decoder can answer, said once (30_encoding.md R103-R109): an instruction whose encoding the word is,
or, for the words of R108's table, the word itself. -/

namespace Sys2Proof

/-- The table of R108, read off the fields of the word. -/
def UnknownWord (w : Word) : Prop :=
  ((fieldClass w).toNat = 0x0 ∧ fieldNNN w ∉ [0x0E0, 0x0EE]) ∨
  ((fieldClass w).toNat = 0x5 ∧ fieldN w ≠ 0) ∨
  ((fieldClass w).toNat = 0x8 ∧ (fieldN w).toNat ∈ [0x8, 0x9, 0xA, 0xB, 0xC, 0xD, 0xF]) ∨
  ((fieldClass w).toNat = 0x9 ∧ fieldN w ≠ 0) ∨
  ((fieldClass w).toNat = 0xE ∧ fieldNN w ∉ [0x9E, 0xA1]) ∨
  ((fieldClass w).toNat = 0xF ∧ fieldNN w ∉ [0x07, 0x0A, 0x15, 0x18, 0x1E, 0x29, 0x33, 0x55, 0x65])

/-- The answer is right for the word: an instruction that the word encodes, outside the table of R108; the word itself,
inside. -/
def Reads (w : Word) : Decoded → Prop
  | .known i => encode i = w ∧ ¬ UnknownWord w
  | .unknown u => u = w ∧ UnknownWord w

/-! ### The classes with a secondary field -/

theorem decodeClass0_reads {w : Word} (hc : (fieldClass w).toNat = 0x0) : Reads w (decodeClass0 w) := by
  unfold decodeClass0
  split_ifs with hcls hret
  · exact ⟨packNNN_of_fields (c := 0x0) hc hcls, by simp [UnknownWord, hc, hcls]⟩
  · exact ⟨packNNN_of_fields (c := 0x0) hc hret, by simp [UnknownWord, hc, hret]⟩
  · exact ⟨rfl, by simp [UnknownWord, hc, hcls, hret]⟩

theorem decodeClass8_reads {w : Word} (hc : (fieldClass w).toNat = 0x8) : Reads w (decodeClass8 w) := by
  unfold decodeClass8
  split
  case h_10 =>
    have hlt := (fieldN w).isLt
    have hn : (fieldN w).toNat ∈ [0x8, 0x9, 0xA, 0xB, 0xC, 0xD, 0xF] := by
      simp only [imp_false, List.mem_cons] at *
      omega
    exact ⟨rfl, .inr (.inr (.inl ⟨hc, hn⟩))⟩
  all_goals next hn => exact ⟨packXYN_of_fields hc hn, by simp [UnknownWord, hc, hn]⟩

theorem decodeClassE_reads {w : Word} (hc : (fieldClass w).toNat = 0xE) : Reads w (decodeClassE w) := by
  unfold decodeClassE
  split_ifs with hnn hnn
  case neg => exact ⟨rfl, by simp [UnknownWord, *]⟩
  all_goals exact ⟨packXNN_of_fields hc hnn, by simp [UnknownWord, hc, hnn]⟩

theorem decodeClassF_reads {w : Word} (hc : (fieldClass w).toNat = 0xF) : Reads w (decodeClassF w) := by
  unfold decodeClassF
  split_ifs with hnn hnn hnn hnn hnn hnn hnn hnn hnn
  case neg => exact ⟨rfl, by simp [UnknownWord, *]⟩
  all_goals exact ⟨packXNN_of_fields hc hnn, by simp [UnknownWord, hc, hnn]⟩

/-! ### The decoder -/

/-- Case `h_k` is class k - 1. The cases are grouped by what the class asks of the word: a secondary decoder, N = 0, or
nothing more, in the three formats. -/
theorem decode_reads (w : Word) : Reads w (decode w) := by
  unfold decode
  split
  case h_1 hc => exact decodeClass0_reads hc
  case h_9 hc => exact decodeClass8_reads hc
  case h_15 hc => exact decodeClassE_reads hc
  case h_16 =>
    have hlt := (fieldClass w).isLt
    have hc : (fieldClass w).toNat = 0xF := by
      simp only [imp_false] at *
      omega
    exact decodeClassF_reads hc
  case h_6 hc | h_10 hc =>
    split_ifs with hn
    · exact ⟨packXYN_of_fields hc (congrArg BitVec.toNat hn), by simp [UnknownWord, hc, hn]⟩
    · exact ⟨rfl, by simp [UnknownWord, hc, hn]⟩
  case h_2 hc | h_3 hc | h_11 hc | h_12 hc => exact ⟨packNNN_of_fields hc rfl, by simp [UnknownWord, hc]⟩
  case h_4 hc | h_5 hc | h_7 hc | h_8 hc | h_13 hc => exact ⟨packXNN_of_fields hc rfl, by simp [UnknownWord, hc]⟩
  case h_14 hc => exact ⟨packXYN_of_fields hc rfl, by simp [UnknownWord, hc]⟩

theorem reads_of_decode {w : Word} {d : Decoded} (h : decode w = d) : Reads w d := h ▸ decode_reads w

theorem exists_decode_eq_known_iff {w : Word} : (∃ i, decode w = .known i) ↔ ¬ UnknownWord w := by
  constructor
  · exact fun ⟨i, h⟩ => (reads_of_decode h).2
  · intro hw
    cases hd : decode w with
    | known i => exact ⟨i, rfl⟩
    | unknown u => exact absurd (reads_of_decode hd).2 hw

theorem decode_eq_unknown_iff {w : Word} : decode w = .unknown w ↔ UnknownWord w := by
  constructor
  · exact fun h => (reads_of_decode h).2
  · intro hw
    cases hd : decode w with
    | known i => exact absurd hw (reads_of_decode hd).2
    | unknown u => rw [(reads_of_decode hd).1]

/-- Settles O2: the decoder answers only an instruction whose encoding the word is. -/
theorem encodeOfDecode : Obligations.EncodeOfDecode := fun _ _ h => (reads_of_decode h).1

/-- Settles O4: the decoder's unknown words are those of the table, whose fields are turned into numbers; for class 0, NNN
is the whole word. -/
theorem unknownWordsExactly : Obligations.UnknownWordsExactly := by
  intro w
  refine ⟨fun u h => (reads_of_decode h).1, decode_eq_unknown_iff.trans ?_⟩
  simp only [UnknownWord, BitVec.toNat_eq, List.mem_cons, List.not_mem_nil, or_false, ne_eq,
    toNat_fieldClass, toNat_fieldN, toNat_fieldNN, toNat_fieldNNN]
  have hclass0 : w.toNat / 4096 = 0 ∧ ¬ (w.toNat % 4096 = 0x0E0 ∨ w.toNat % 4096 = 0x0EE) ↔
      w.toNat / 4096 = 0 ∧ ¬ w.toNat = 0x00E0 ∧ ¬ w.toNat = 0x00EE := by omega
  exact or_congr hclass0 Iff.rfl

end Sys2Proof
end

section
/-! SUPPORT. The opcode map (30_encoding.md R104) against the decoder: every encoding selects a row, a word that selects a
row is not in the table of R108, and two rows always disagree on a bit that both fix. -/

namespace Sys2Proof

/-- The 34 lemmas of `Laws.TableRow`, as one. -/
theorem wellFormedWord_encode (i : Instr) : wellFormedWord (encode i) = true := by
  open Laws in
  cases i with
  | cls => exact TableRow.cls
  | ret => exact TableRow.ret
  | jp nnn => exact TableRow.jp nnn
  | call nnn => exact TableRow.call nnn
  | seImm x nn => exact TableRow.seImm x nn
  | sneImm x nn => exact TableRow.sneImm x nn
  | seReg x y => exact TableRow.seReg x y
  | ldImm x nn => exact TableRow.ldImm x nn
  | addImm x nn => exact TableRow.addImm x nn
  | ldReg x y => exact TableRow.ldReg x y
  | orReg x y => exact TableRow.orReg x y
  | andReg x y => exact TableRow.andReg x y
  | xorReg x y => exact TableRow.xorReg x y
  | addReg x y => exact TableRow.addReg x y
  | sub x y => exact TableRow.sub x y
  | shr x y => exact TableRow.shr x y
  | subn x y => exact TableRow.subn x y
  | shl x y => exact TableRow.shl x y
  | sneReg x y => exact TableRow.sneReg x y
  | ldI nnn => exact TableRow.ldI nnn
  | jpV0 nnn => exact TableRow.jpV0 nnn
  | rnd x nn => exact TableRow.rnd x nn
  | drw x y n => exact TableRow.drw x y n
  | skp x => exact TableRow.skp x
  | sknp x => exact TableRow.sknp x
  | ldVxDt x => exact TableRow.ldVxDt x
  | ldVxK x => exact TableRow.ldVxK x
  | ldDtVx x => exact TableRow.ldDtVx x
  | ldStVx x => exact TableRow.ldStVx x
  | addI x => exact TableRow.addI x
  | ldF x => exact TableRow.ldF x
  | ldB x => exact TableRow.ldB x
  | storeRegs x => exact TableRow.storeRegs x
  | loadRegs x => exact TableRow.loadRegs x

theorem OpcodeRow.selects_iff {r : OpcodeRow} {w : Word} : r.selects w = true ↔ w &&& r.mask = r.pattern := by
  simp [OpcodeRow.selects]

/-! ### A word that selects a row -/

/-- A word that selects one of some rows agrees with that row's pattern on every field that all their masks cover. -/
theorem extract_of_selects {rows : List OpcodeRow} {l n : Nat}
    (hmask : ∀ r ∈ rows, r.mask.extractLsb' l n = BitVec.allOnes n) {r : OpcodeRow} (hr : r ∈ rows) {w : Word}
    (h : r.selects w = true) : w.extractLsb' l n = r.pattern.extractLsb' l n := by
  rw [← OpcodeRow.selects_iff.mp h, BitVec.extractLsb'_and, hmask r hr, BitVec.and_allOnes]

/-- The class of the word is the row's, and the secondary field that its class is decoded on is the row's where the class
has one (R105-R107). -/
theorem not_unknownWord_of_wellFormed {w : Word} (h : wellFormedWord w = true) : ¬ UnknownWord w := by
  obtain ⟨r, hr, hsel⟩ := List.any_eq_true.mp h
  have hc := extract_of_selects (l := 12) (n := 4) (rows := opcodeMap) (by decide) hr hsel
  simp only [opcodeMap, List.mem_append] at hr
  rcases hr with ((hr | hr) | hr) | hr
  · have hnnn := extract_of_selects (l := 0) (n := 12) (by decide) hr hsel
    fin_cases hr <;> simp [UnknownWord, fieldClass, fieldNNN, hc, hnnn]
  · fin_cases hr <;> simp [UnknownWord, fieldClass, hc]
  · have hn := extract_of_selects (l := 0) (n := 4) (by decide) hr hsel
    fin_cases hr <;> simp [UnknownWord, fieldClass, fieldN, hc, hn]
  · have hnn := extract_of_selects (l := 0) (n := 8) (by decide) hr hsel
    fin_cases hr <;> simp [UnknownWord, fieldClass, fieldNN, hc, hnn]

/-! ### No word selects two rows -/

/-- Two rows disagree on a bit that both fix. -/
def OpcodeRow.Conflicts (r r' : OpcodeRow) : Prop := r.pattern &&& r'.mask ≠ r'.pattern &&& r.mask

theorem OpcodeRow.Conflicts.not_selects {r r' : OpcodeRow} (hrr : r.Conflicts r') {w : Word}
    (h : r.selects w = true) : ¬ r'.selects w = true := by
  intro h'
  apply hrr
  rw [← OpcodeRow.selects_iff.mp h, ← OpcodeRow.selects_iff.mp h', BitVec.and_assoc, BitVec.and_assoc,
    BitVec.and_comm r.mask]

theorem opcodeMap_pairwise_conflicts : opcodeMap.Pairwise OpcodeRow.Conflicts := by
  unfold OpcodeRow.Conflicts
  decide

theorem length_filter_selects_le_one (w : Word) : (opcodeMap.filter (·.selects w)).length ≤ 1 := by
  have hconf := opcodeMap_pairwise_conflicts.filter (·.selects w)
  have hsel : ∀ r ∈ opcodeMap.filter (·.selects w), r.selects w = true := fun r hr => (List.mem_filter.mp hr).2
  generalize opcodeMap.filter (·.selects w) = rows at hconf hsel
  match rows with
  | [] | [_] => simp
  | r :: r' :: _ =>
    have hrr : r.Conflicts r' := List.rel_of_pairwise_cons hconf (by simp)
    exact absurd (hsel r' (by simp)) (hrr.not_selects (hsel r (by simp)))

/-- Settles O3: a word that decodes is an encoding, which selects a row; a word that selects a row is outside the table of
R108, so it decodes. -/
theorem decodeAgreesWithOpcodeMap : Obligations.DecodeAgreesWithOpcodeMap := by
  intro w
  refine ⟨⟨?_, ?_⟩, length_filter_selects_le_one w⟩
  · rintro ⟨i, h⟩
    rw [← encodeOfDecode w i h]
    exact wellFormedWord_encode i
  · exact fun h => exists_decode_eq_known_iff.mpr (not_unknownWord_of_wellFormed h)

end Sys2Proof
end

section
/-! SUPPORT. The instruction step on an unknown word (30_encoding.md R108, 60_exceptions.md R358). -/

namespace Sys2Proof.Machine

theorem stepInstr_of_unknown {s : State} {w u : Word} (hr : s.status = .running) (hf : fetch s = .ok w)
    (hd : decode w = .unknown u) : stepInstr s = .next (execUnknown u s) := by
  simp only [stepInstr, hr, hf, hd, if_true]

/-- PC advanced by the fetch, in 16-bit storage (40_pipeline.md R132). -/
theorem advance_advanced (s : State) : Advanced s s.advance := by
  rw [Advanced, State.advance_pc, BitVec.ofNat_add, BitVec.ofNat_toNat, BitVec.setWidth_eq]

theorem execUnknown_keeps (w : Word) (s : State) : KeepsAllBut [.pc, .events] s (execUnknown w s) :=
  (advance_keeps s).trans (emitAll_keeps s.advance [.unknownOpcode s.pc w])

/-- Settles O7: the fetch gives the word, and an unknown word is the advance and one event. -/
theorem unknownWordIsNoOp : Obligations.UnknownWordIsNoOp := by
  intro s w hr hphase hpc hw hd
  have hfetch : fetch s = .ok w := by rw [hw, fetch_of_le hpc]
  have hstep := (step_of_unbounded hphase).trans (stepInstr_of_unknown hr hfetch hd)
  exact ⟨execUnknown w s, hstep, advance_advanced s, rfl, execUnknown_keeps w s⟩

end Sys2Proof.Machine
end

section
/-! SUPPORT. Where the scheduler stands decides what a step is (40_pipeline.md R137, R140): one equation per phase, and
what each move of the scheduler leaves. -/

namespace Sys2Proof.Machine

/-! ### One equation per phase -/

theorem step_of_steps_succ {s : State} {n : Nat} (h : s.phase = .steps (n + 1)) :
    step s = stepInstr { s with phase := .steps n } := by
  simp only [step, move, h]

theorem step_of_steps_zero {s : State} (h : s.phase = .steps 0) : step s = .next (endTick s) := by
  simp only [step, move, h]

theorem step_of_no_call {s : State} (h : s.phase = .boundary) (hc : s.calls = []) : step s = .fault .awaitingHost := by
  simp only [step, move, h, hc]

theorem step_of_call {s : State} {c : HostCall} {cs : List HostCall} (h : s.phase = .boundary) (hc : s.calls = c :: cs) :
    step s = .next (serve c { s with calls := cs }) := by
  simp only [step, move, h, hc]

theorem stepInstr_of_not_running {s : State} (h : s.status ≠ .running) : stepInstr s = .fault .notRunning := if_neg h

/-- Settles O6: inside a tick the step is the instruction step, and that executes what the two bytes decode to. -/
theorem stepRunsDecodedInstruction : Obligations.StepRunsDecodedInstruction := by
  intro s i hr hpc hd
  refine ⟨fun hphase => ?_, fun n hphase => ?_⟩
  · exact (step_of_unbounded hphase).trans (stepInstr_of_known hr hpc hd)
  · exact (step_of_steps_succ hphase).trans (stepInstr_of_known (s := { s with phase := .steps n }) hr hpc hd)

/-- Settles O10: no host call at a boundary, or an instruction step that is not defined. -/
theorem stepStopsByName : Obligations.StepStopsByName := by
  intro s
  refine ⟨step_of_no_call, fun hphase hr => ?_, fun n hphase hr => ?_⟩
  · exact (step_of_unbounded hphase).trans (stepInstr_of_not_running hr)
  · exact (step_of_steps_succ hphase).trans (stepInstr_of_not_running (s := { s with phase := .steps n }) hr)

/-! ### Frames of the scheduler's fields -/

theorem Part.same.refl (p : Part) (s : State) : p.same s s := by
  cases p with
  | mem => exact fun _ => rfl
  | _ => rfl

/-- A piece that is the same after all need not be named among the changed ones. -/
theorem KeepsAllBut.of_cons {p : Part} {ps : List Part} {s t : State} (h : KeepsAllBut (p :: ps) s t)
    (hp : p.same s t) : KeepsAllBut ps s t := by
  intro q hq
  by_cases hqp : q = p
  · exact hqp ▸ hp
  · exact h q (by simp [hqp, hq])

/-- The state with the scheduler elsewhere and other host calls pending. -/
def State.scheduled (s : State) (p : Phase) (cs : List HostCall) : State := { s with phase := p, calls := cs }

/-- The state with another keypad snapshot. -/
def State.withKeys (s : State) (keys : BitVec 16) : State := { s with keys := keys }

theorem scheduled_keeps (s : State) (p : Phase) (cs : List HostCall) :
    KeepsAllBut [.phase, .calls] s (s.scheduled p cs) := by
  intro q hq; cases q <;> simp_all [Part.same, State.scheduled]

theorem withKeys_keeps (s : State) (keys : BitVec 16) : KeepsAllBut [.keys] s (s.withKeys keys) := by
  intro q hq; cases q <;> simp_all [Part.same, State.withKeys]

/-- A state is its own value with the scheduler where it stands. -/
theorem scheduled_self {s : State} {p : Phase} {cs : List HostCall} (hp : s.phase = p) (hc : s.calls = cs) :
    s.scheduled p cs = s := by
  subst hp hc; rfl

/-! ### The two ends of a tick -/

/-- A tick of a Running block takes the snapshot and makes its steps due (40_pipeline.md R140, R141). -/
theorem step_of_tick_running {s : State} {k : Nat} {keys : BitVec 16} {cs : List HostCall} (hr : s.status = .running)
    (hphase : s.phase = .boundary) (hc : s.calls = .tick k keys :: cs) :
    step s = .next ((s.withKeys keys).scheduled (.steps k) cs) :=
  (step_of_call hphase hc).trans (congrArg Host.Outcome.next (if_pos hr))

/-- A tick of a block that is not Running is taken off the pending calls, and that is all (40_pipeline.md R145). -/
theorem step_of_tick_stopped {s : State} {k : Nat} {keys : BitVec 16} {cs : List HostCall} (hr : s.status ≠ .running)
    (hphase : s.phase = .boundary) (hc : s.calls = .tick k keys :: cs) : step s = .next { s with calls := cs } :=
  (step_of_call hphase hc).trans (congrArg Host.Outcome.next (if_neg hr))

/-- Settles O44: the two ways a tick begins. -/
theorem tickTakesSnapshot : Obligations.TickTakesSnapshot := by
  intro s k keys cs hphase hc
  by_cases hr : s.status = .running
  · refine ⟨_, step_of_tick_running hr hphase hc, rfl, fun _ => ⟨rfl, rfl, ?_⟩, fun hn => absurd hr hn⟩
    exact (withKeys_keeps s keys).trans (scheduled_keeps _ _ cs)
  · refine ⟨_, step_of_tick_stopped hr hphase hc, rfl, fun h => absurd h hr, fun _ => ?_⟩
    exact (scheduled_keeps s s.phase cs).of_cons rfl

theorem countDown_toNat (b : Byte) : (countDown b).toNat = b.toNat - 1 := by
  unfold countDown
  split
  · bv_omega
  · omega

theorem endTick_keeps (s : State) : KeepsAllBut [.dt, .st, .phase] s (endTick s) := by
  intro p hp; cases p <;> simp_all [Part.same]

/-- Settles O45: with no step due the step is the end of the tick. -/
theorem tickEndCountsDown : Obligations.TickEndCountsDown := by
  intro s hphase
  exact ⟨endTick s, step_of_steps_zero hphase, countDown_toNat s.dt, countDown_toNat s.st, rfl, endTick_keeps s⟩

end Sys2Proof.Machine
end

section
/-! SUPPORT. The instruction step of a Running block in closed form: the fault it takes, if it takes one, and the state it
completes in otherwise; tied to `stepInstr` by `stepInstr_cases`. -/

namespace Sys2Proof.Machine

/-! ### The two functions -/

/-- The two bytes at PC, high byte first (20_memory.md R75). -/
def State.wordAtPc (s : State) : Word := s.mem.read s.pc.toNat ++ s.mem.read (s.pc.toNat + 1)

/-- The fault an instruction step takes, and the word it records: none where the fetch faults (60_exceptions.md R353), else
the instruction's own. -/
def stepFault (s : State) : Option (Option Word × Raised) :=
  if 0xFFE < s.pc.toNat then some (none, ⟨.memoryBounds, if s.pc.toNat = 0xFFF then 0x1000 else s.pc.toNat⟩)
  else match decode s.wordAtPc with
    | .known i => (raised i s).map fun r => (some (encode i), r)
    | .unknown _ => none

/-- The state an instruction step completes in, where it takes no fault. -/
def stepped (s : State) : State :=
  match decode s.wordAtPc with
  | .known i => completed i s
  | .unknown w => execUnknown w s

/-! ### The tie to `stepInstr` -/

/-- Everything an instruction step of a Running block can do (40_pipeline.md R130, R135). -/
theorem stepInstr_cases {s : State} (hr : s.status = .running) :
    (stepFault s = none ∧ stepInstr s = .next (stepped s)) ∨
      ∃ w r, stepFault s = some (w, r) ∧ stepInstr s = .next (enterFault s w r) := by
  by_cases hpc : 0xFFE < s.pc.toNat
  · exact .inr ⟨none, _, if_pos hpc, stepInstr_of_fetch_error hr (fetch_of_gt hpc)⟩
  · have hle : s.pc.toNat ≤ 0xFFE := Nat.not_lt.mp hpc
    cases hd : decode s.wordAtPc with
    | known i =>
      rcases exec_cases i s with ⟨hn, he⟩ | ⟨r, hraised, he⟩
      · exact .inl ⟨by simp [stepFault, hpc, hd, hn], by simp [stepInstr_of_known hr hle hd, stepped, hd, he]⟩
      · exact .inr ⟨_, r, by simp [stepFault, hpc, hd, hraised], (stepInstr_of_known hr hle hd).trans he⟩
    | unknown w =>
      exact .inl ⟨by simp [stepFault, hpc, hd], by simp [stepInstr_of_unknown hr (fetch_of_le hle) hd, stepped, hd]⟩

/-- A fault is the fetch's, or one that the instruction at PC may raise, recorded with the fetched word
(60_exceptions.md R350, R360). -/
theorem stepFault_spec {s : State} {w : Option Word} {r : Raised} (h : stepFault s = some (w, r)) :
    (0xFFE < s.pc.toNat ∧ w = none ∧ r = ⟨.memoryBounds, if s.pc.toNat = 0xFFF then 0x1000 else s.pc.toNat⟩) ∨
      (s.pc.toNat ≤ 0xFFE ∧ w = some s.wordAtPc ∧
        ∃ i, decode s.wordAtPc = .known i ∧ mayRaise s i r.code = true) := by
  unfold stepFault at h
  split at h
  · next hpc => cases h; exact .inl ⟨hpc, rfl, rfl⟩
  · next hpc =>
    split at h
    · next i hd =>
      obtain ⟨r', hraised, he⟩ := Option.map_eq_some_iff.mp h
      cases he
      exact .inr ⟨Nat.not_lt.mp hpc, by rw [encodeOfDecode _ i hd], i, hd, (raised_spec hraised).1⟩
    · cases h

/-- A step that takes no fault leaves the status as it was (40_pipeline.md R135). -/
theorem stepped_status (s : State) : (stepped s).status = s.status := by
  unfold stepped
  split
  · next i _ => exact completed_keeps i s .status (by cases i <;> simp [writes])
  · rfl

/-! ### Progress and precision -/

theorem stepInstr_answers {s : State} (hr : s.status = .running) :
    ∃ t, stepInstr s = .next t ∧ (t.status = .running ∨ t.status = .halted) := by
  rcases stepInstr_cases hr with ⟨-, h⟩ | ⟨w, r, -, h⟩
  · exact ⟨_, h, .inl ((stepped_status s).trans hr)⟩
  · exact ⟨_, h, .inr rfl⟩

/-- Settles O9: inside a tick a step is an instruction step, or the end of the tick, which keeps the status. -/
theorem runningStepAnswers : Obligations.RunningStepAnswers := by
  intro s hr hphase
  cases hp : s.phase with
  | boundary => exact absurd hp hphase
  | unbounded => rw [step_of_unbounded hp]; exact stepInstr_answers hr
  | steps left =>
    cases left with
    | zero => exact ⟨endTick s, step_of_steps_zero hp, .inl hr⟩
    | succ n => rw [step_of_steps_succ hp]; exact stepInstr_answers (s := { s with phase := .steps n }) hr

/-- Settles O11: a step that takes no fault leaves the block Running, and fault entry changes nothing but status, record
and phase. -/
theorem faultsArePrecise : Obligations.FaultsArePrecise := by
  intro s t hr hphase hstep hstopped
  rw [step_of_unbounded hphase] at hstep
  rcases stepInstr_cases hr with ⟨-, h⟩ | ⟨w, r, hf, h⟩
  · cases h.symm.trans hstep
    exact absurd ((stepped_status s).trans hr) hstopped
  · cases h.symm.trans hstep
    have hhalts := enterFault_haltsWith s w r
    rcases stepFault_spec hf with ⟨hpc, rfl, rfl⟩ | ⟨hpc, rfl, i, hd, hmay⟩
    · exact .inl ⟨hpc, hhalts⟩
    · exact .inr ⟨hpc, s.wordAtPc, i, r.code, r.info, rfl, hd, hmay, hhalts⟩

end Sys2Proof.Machine
end

section
/-! SUPPORT. No instruction step reads where the scheduler stands or what the host has called: a counted tick and the open
tick of Log 2 run the same steps. -/

namespace Sys2Proof.Machine

theorem raised_scheduled (i : Instr) (s : State) (p : Phase) (cs : List HostCall) :
    raised i (s.scheduled p cs) = raised i s := by
  cases i <;> rfl

theorem completed_scheduled (i : Instr) (s : State) (p : Phase) (cs : List HostCall) :
    completed i (s.scheduled p cs) = (completed i s).scheduled p cs := by
  cases i <;> rfl

theorem stepFault_scheduled (s : State) (p : Phase) (cs : List HostCall) :
    stepFault (s.scheduled p cs) = stepFault s := by
  have hw : (s.scheduled p cs).wordAtPc = s.wordAtPc := rfl
  simp only [stepFault, hw, raised_scheduled]
  rfl

theorem stepped_scheduled (s : State) (p : Phase) (cs : List HostCall) :
    stepped (s.scheduled p cs) = (stepped s).scheduled p cs := by
  have hw : (s.scheduled p cs).wordAtPc = s.wordAtPc := rfl
  simp only [stepped, hw]
  split
  · exact completed_scheduled _ s p cs
  · rfl

/-- Wherever the scheduler stands, the instruction step of a Running block completes alike, or halts the block alike and
ends the tick (40_pipeline.md R143). -/
theorem stepInstr_scheduled {s : State} (hr : s.status = .running) :
    ∃ t : State, (t.status = .running ∧ ∀ p cs, stepInstr (s.scheduled p cs) = .next (t.scheduled p cs)) ∨
      (t.status = .halted ∧ ∀ p cs, stepInstr (s.scheduled p cs) = .next (t.scheduled .boundary cs)) := by
  cases hf : stepFault s with
  | none =>
    refine ⟨stepped s, .inl ⟨(stepped_status s).trans hr, fun p cs => ?_⟩⟩
    rcases stepInstr_cases (s := s.scheduled p cs) hr with ⟨-, h⟩ | ⟨w, r, hf', -⟩
    · rw [h, stepped_scheduled]
    · rw [stepFault_scheduled, hf] at hf'; cases hf'
  | some f =>
    refine ⟨enterFault s f.1 f.2, .inr ⟨rfl, fun p cs => ?_⟩⟩
    rcases stepInstr_cases (s := s.scheduled p cs) hr with ⟨hf', -⟩ | ⟨w, r, hf', h⟩
    · rw [stepFault_scheduled, hf] at hf'; cases hf'
    · rw [stepFault_scheduled, hf] at hf'; cases hf'; exact h

end Sys2Proof.Machine
end

section
/-! SUPPORT. Runs of the machine: one step more, two runs in a row, and whole ticks (40_pipeline.md R140-R145). -/

namespace Sys2Proof.Machine

/-! ### Runs -/

theorem run_succ_of_step {s t : State} (h : step s = .next t) (n : Nat) : core.run (n + 1) s = core.run n t := by
  have hc : core.step s = .next t := h
  simp only [Host.Core.run, hc]

theorem run_one_of_step {s t : State} (h : step s = .next t) : core.run 1 s = .next t := run_succ_of_step h 0

/-- A run of one step more begins with a step. -/
theorem run_succ_next {s t : State} {n : Nat} (h : core.run (n + 1) s = .next t) :
    ∃ u, step s = .next u ∧ core.run n u = .next t := by
  simp only [Host.Core.run] at h
  split at h
  · next u hu => exact ⟨u, hu, h⟩
  · cases h
  · cases h

/-- Two runs in a row are one run. -/
theorem run_add {m : Nat} {s t : State} (h : core.run m s = .next t) (n : Nat) :
    core.run (m + n) s = core.run n t := by
  induction m generalizing s with
  | zero => cases h; rw [Nat.zero_add]
  | succ m ih =>
    obtain ⟨u, hu, hm⟩ := run_succ_next h
    rw [Nat.add_right_comm, run_succ_of_step hu]
    exact ih hm

/-- Where the block waits for its host, only the run of no step answers a state. -/
theorem run_next_of_no_call {s t : State} {n : Nat} (hphase : s.phase = .boundary) (hc : s.calls = [])
    (h : core.run n s = .next t) : t = s := by
  cases n with
  | zero => cases h; rfl
  | succ n =>
    obtain ⟨u, hu, -⟩ := run_succ_next h
    cases (step_of_no_call hphase hc).symm.trans hu

/-! ### A whole tick -/

/-- The steps of the open tick that end Running are, one by one, those of a tick in which `n` more are due. -/
theorem run_counted {j : Nat} {u t : State} (hr : u.status = .running)
    (hrun : core.run j (u.scheduled .unbounded []) = .next t) (ht : t.status = .running) (n : Nat) (cs : List HostCall) :
    t.phase = .unbounded ∧ t.calls = [] ∧
      core.run j (u.scheduled (.steps (n + j)) cs) = .next (t.scheduled (.steps n) cs) := by
  induction j generalizing u with
  | zero => cases hrun; exact ⟨rfl, rfl, rfl⟩
  | succ j ih =>
    obtain ⟨u', hstep, hrest⟩ := run_succ_next hrun
    have hopen : stepInstr (u.scheduled .unbounded []) = .next u' := (step_of_unbounded rfl).symm.trans hstep
    obtain ⟨v, ⟨hv, hall⟩ | ⟨hv, hall⟩⟩ := stepInstr_scheduled hr
    · cases (hall _ _).symm.trans hopen
      obtain ⟨hp, hc, hcounted⟩ := ih hv hrest
      have hfirst : step (u.scheduled (.steps (n + j + 1)) cs) = .next (v.scheduled (.steps (n + j)) cs) :=
        (step_of_steps_succ rfl).trans (hall _ cs)
      exact ⟨hp, hc, (run_succ_of_step hfirst j).trans hcounted⟩
    · cases (hall _ _).symm.trans hopen
      have hstuck : t = v.scheduled .boundary [] := run_next_of_no_call rfl rfl hrest
      rw [hstuck] at ht
      cases hv.symm.trans ht

/-- Settles O46: the snapshot, the steps counted down, and the end of the tick; or the step that halts, which ends it. -/
theorem wholeTick : Obligations.WholeTick := by
  rintro s u k keys cs hphase hc rfl
  refine ⟨fun hr => run_one_of_step (step_of_tick_stopped hr hphase hc), ?_, ?_⟩
  · intro t hr hrun ht
    obtain ⟨-, -, hsteps⟩ := run_counted (u := s.withKeys keys) hr hrun ht 0 cs
    rw [Nat.zero_add] at hsteps
    have hend : core.run (k + 1) ((s.withKeys keys).scheduled (.steps k) cs) =
        .next (endTick (t.scheduled (.steps 0) cs)) :=
      (run_add hsteps 1).trans (run_one_of_step (step_of_steps_zero rfl))
    refine ⟨_, (run_succ_of_step (step_of_tick_running hr hphase hc) (k + 1)).trans hend,
      countDown_toNat t.dt, countDown_toNat t.st, rfl, rfl, ?_⟩
    exact ((scheduled_keeps t (.steps 0) cs).trans (endTick_keeps _)).mono (by simp)
  · intro j t t1 hr hj hrun ht hstep hhalted
    obtain ⟨n, rfl⟩ : ∃ n, k = n + 1 + j := ⟨k - (j + 1), by omega⟩
    obtain ⟨hp, hcalls, hsteps⟩ := run_counted (u := s.withKeys keys) hr hrun ht (n + 1) cs
    have hlast : step (t.scheduled (.steps (n + 1)) cs) = .next { t1 with calls := cs } := by
      have hopen : stepInstr (t.scheduled .unbounded []) = .next t1 := by
        rw [scheduled_self hp hcalls, ← step_of_unbounded hp]; exact hstep
      obtain ⟨v, ⟨hv, hall⟩ | ⟨-, hall⟩⟩ := stepInstr_scheduled ht
      · cases (hall _ _).symm.trans hopen
        cases hv.symm.trans hhalted
      · cases (hall _ _).symm.trans hopen
        exact (step_of_steps_succ rfl).trans (hall _ cs)
    exact (run_succ_of_step (step_of_tick_running hr hphase hc) (j + 1)).trans
      ((run_add hsteps 1).trans (run_one_of_step hlast))

/-! ### Ticks in a row -/

/-- Settles O47: by induction on the ticks, each of which is taken off and nothing more. -/
theorem stoppedBlockIsFrozen : Obligations.StoppedBlockIsFrozen := by
  intro ticks
  induction ticks with
  | nil => intro s _ _ hc; exact congrArg Host.Outcome.next (scheduled_self rfl hc).symm
  | cons tick ticks ih =>
    intro s hr hphase hc
    exact (run_succ_of_step (step_of_tick_stopped hr hphase hc) ticks.length).trans (ih _ hr hphase rfl)

/-- What a Running block's tick of no step leaves (40_pipeline.md R144): the snapshot taken, the timers decremented. -/
def State.emptyTicked (s : State) (keys : BitVec 16) (cs : List HostCall) : State :=
  endTick ((s.withKeys keys).scheduled (.steps 0) cs)

theorem run_emptyTick {s : State} {keys : BitVec 16} {cs : List HostCall} (hr : s.status = .running)
    (hphase : s.phase = .boundary) (hc : s.calls = .tick 0 keys :: cs) :
    core.run 2 s = .next (s.emptyTicked keys cs) :=
  (run_succ_of_step (step_of_tick_running hr hphase hc) 1).trans (run_one_of_step (step_of_steps_zero rfl))

theorem emptyTicked_dt_toNat (s : State) (keys : BitVec 16) (cs : List HostCall) :
    (s.emptyTicked keys cs).dt.toNat = s.dt.toNat - 1 := countDown_toNat s.dt

theorem emptyTicked_st_toNat (s : State) (keys : BitVec 16) (cs : List HostCall) :
    (s.emptyTicked keys cs).st.toNat = s.st.toNat - 1 := countDown_toNat s.st

theorem emptyTicked_keeps {s : State} (hphase : s.phase = .boundary) (keys : BitVec 16) (cs : List HostCall) :
    KeepsAllBut [.dt, .st, .keys, .calls] s (s.emptyTicked keys cs) := by
  have hall := ((withKeys_keeps s keys).trans (scheduled_keeps _ (.steps 0) cs)).trans (endTick_keeps _)
  exact (hall.mono (qs := [.phase, .dt, .st, .keys, .calls]) (by simp)).of_cons hphase.symm

/-- Settles O48: by induction on the ticks, each of which takes 1 off a timer that is not 0. -/
theorem timersReachZero : Obligations.TimersReachZero := by
  intro n keys
  induction n with
  | zero => exact fun s _ _ hc => ⟨s, rfl, rfl, rfl, hc, fun p _ => Part.same.refl p s⟩
  | succ n ih =>
    intro s hr hphase hc
    obtain ⟨t, hrun, hdt, hst, hcalls, hkeeps⟩ := ih (s.emptyTicked keys (List.replicate n (.tick 0 keys))) hr rfl rfl
    rw [emptyTicked_dt_toNat, Nat.sub_sub, Nat.add_comm] at hdt
    rw [emptyTicked_st_toNat, Nat.sub_sub, Nat.add_comm] at hst
    refine ⟨t, ?_, hdt, hst, hcalls, ((emptyTicked_keeps hphase keys _).trans hkeeps).mono (by simp)⟩
    rw [Nat.mul_succ, Nat.add_comm]
    exact (run_add (run_emptyTick hr hphase hc) (2 * n)).trans hrun

end Sys2Proof.Machine
end

section
/-! SUPPORT. Control transfer and skips (41_control_flow.md): where each leaves PC, and what CALL and RET do to the stack. -/

namespace Sys2Proof.Machine

/-! ### Jumps -/

/-- A target below 0x10000 is stored as it stands (10_state.md R36). -/
theorem setPc_pc_toNat {s : State} {n : Nat} (h : n < 0x10000) : (s.setPc n).pc.toNat = n := by
  rw [State.setPc_pc, BitVec.toNat_ofNat, Nat.mod_eq_of_lt h]

/-- So a 12-bit address fits into PC. -/
theorem setPc_addr_toNat (s : State) (nnn : Addr) : (s.setPc nnn.toNat).pc.toNat = nnn.toNat :=
  setPc_pc_toNat (Nat.lt_trans nnn.isLt (by decide))

/-- A target of BNNN fits into PC: the highest is 0x10FE (41_control_flow.md R167). -/
theorem jumpTarget_lt (nnn : Addr) (b : Byte) : jumpTarget nnn b < 0x10000 := by
  have hn := nnn.isLt
  have hb := b.isLt
  rw [jumpTarget]
  omega

/-- Settles O12: a jump raises no fault, and every address fits into PC. -/
theorem jumpSetsPc : Obligations.JumpSetsPc := fun nnn s =>
  ⟨decode_encode (.jp nnn), s.setPc nnn.toNat, exec_of_completes rfl, setPc_addr_toNat s nnn, setPc_keeps s _⟩

/-- Settles O17: the exact sum fits into PC. -/
theorem jumpWithOffset : Obligations.JumpWithOffset := fun nnn s =>
  ⟨decode_encode (.jpV0 nnn), s.setPc (jumpTarget nnn (s.reg 0)), exec_of_completes rfl,
    setPc_pc_toNat (jumpTarget_lt nnn _), setPc_keeps s _⟩

/-! ### Skips -/

/-- PC at the target of a skip is 4 or 2 further, as the condition says (40_pipeline.md R132). -/
theorem setPc_skipTarget_skips (s : State) (c : Bool) : Skips c s (s.setPc (skipTarget s c)) := by
  rw [Skips, State.setPc_pc, skipTarget, BitVec.ofNat_add, BitVec.ofNat_toNat, BitVec.setWidth_eq]
  cases c with
  | true => rfl
  | false => rfl

/-- An instruction that raises no fault and completes at the target of a skip is that skip, and nothing else. -/
theorem exec_skips {i : Instr} {s : State} {c : Bool} (hr : raised i s = none)
    (hc : completed i s = s.setPc (skipTarget s c)) :
    ∃ t, exec i s = .next t ∧ Skips c s t ∧ KeepsAllBut [.pc] s t :=
  ⟨s.setPc (skipTarget s c), hc ▸ exec_of_completes hr, setPc_skipTarget_skips s c, setPc_keeps s _⟩

/-- The comparison that SNE makes, as a decided proposition. -/
theorem bne_eq_decide_ne (a b : Byte) : (a != b) = decide (a ≠ b) := by
  rw [bne, beq_eq_decide, decide_not]

/-- Settles O15: both are skips, on the comparison of Vx with NN. -/
theorem skipsOnImmediate : Obligations.SkipsOnImmediate := by
  intro x nn s
  refine ⟨decode_encode (.seImm x nn), decode_encode (.sneImm x nn), ?_, ?_⟩
  · exact exec_skips rfl (by rw [completed, beq_eq_decide])
  · exact exec_skips rfl (by rw [completed, bne_eq_decide_ne])

/-- Settles O16: both are skips, on the comparison of Vx with Vy. -/
theorem skipsOnRegister : Obligations.SkipsOnRegister := by
  intro x y s
  refine ⟨decode_encode (.seReg x y), decode_encode (.sneReg x y), ?_, ?_⟩
  · exact exec_skips rfl (by rw [completed, beq_eq_decide])
  · exact exec_skips rfl (by rw [completed, bne_eq_decide_ne])

/-! ### CALL and RET -/

/-- An instruction that raises a fault halts on it, and nothing else (60_exceptions.md R360). -/
theorem exec_haltsWith {i : Instr} {s : State} {r : Raised} (h : raised i s = some r) :
    ∃ t, exec i s = .next t ∧ HaltsWith s t r.code (some (encode i)) r.info :=
  ⟨_, exec_of_raised h, enterFault_haltsWith s _ r⟩

/-- What every slot holds after a CALL (10_state.md R42). -/
theorem completed_call_slot (nnn : Addr) (s : State) {j : Nat} (hj : j < 16) :
    (completed (.call nnn) s).stack[j] = if s.sp.val = j then s.pc + 2#16 else s.stack[j] := by
  simp only [completed, State.advance_pc_add]
  rw [Vector.getElem_setIfInBounds]

/-- Settles O13: with a slot free the CALL completes, and writes the slot that SP names; else it raises StackOverflow. -/
theorem callPushesAndJumps : Obligations.CallPushesAndJumps := by
  intro nnn s
  refine ⟨decode_encode (.call nnn), fun hsp => ?_, fun hfull => ?_⟩
  · refine ⟨_, exec_call_of_free hsp, setPc_addr_toNat s nnn, completed_call_sp hsp, ?_, fun j hj => ?_,
      (completed_keeps (.call nnn) s).mono (by simp [writes])⟩
    · rw [completed_call_slot nnn s hsp, if_pos rfl]
    · rw [completed_call_slot nnn s j.isLt, if_neg (Ne.symm hj)]
  · have hr : raised (.call nnn) s = some ⟨.stackOverflow, 16⟩ := if_neg (by omega)
    exact exec_haltsWith hr

/-- Settles O14: with a slot occupied the RET completes; else it raises StackUnderflow. -/
theorem returnPops : Obligations.ReturnPops := by
  intro s
  refine ⟨decode_encode .ret, fun hsp => ?_, fun hempty => ?_⟩
  · exact ⟨_, exec_ret_of_occupied hsp, rfl, Nat.sub_add_cancel (Nat.pos_of_ne_zero hsp), completed_keeps .ret s⟩
  · have hr : raised .ret s = some ⟨.stackUnderflow, 0⟩ := if_pos hempty
    exact exec_haltsWith hr

end Sys2Proof.Machine
end

section
/-! SUPPORT. Registers, arithmetic and logic (42_alu.md): the frame its instructions share, the flags as numbers, and
what each second statement reads after the flag was written. -/

namespace Sys2Proof.Machine

/-! ### The frame -/

/-- An instruction that advances PC and writes registers, and `ps` besides, keeps everything else. -/
theorem completed_alu_frame (i : Instr) (s : State) {ps : List Part} (hpc : (completed i s).pc = s.advance.pc)
    (hw : writes i = .v :: ps) :
    KeepsRegsBut (writesRegs i) s (completed i s) ∧ Advanced s (completed i s) ∧
      KeepsAllBut (.v :: .pc :: ps) s (completed i s) := by
  have hkeeps : KeepsAllBut (.pc :: .v :: ps) s (completed i s) := hw ▸ completed_keeps i s
  exact ⟨completed_keepsRegs i s, hpc.trans (advance_advanced s), hkeeps.mono (List.Perm.swap _ _ _).subset⟩

/-! ### One register written -/

/-- Settles O20: both write one register after the advance. -/
theorem loadsWriteTheirRegister : Obligations.LoadsWriteTheirRegister := by
  intro x y nn s
  refine ⟨decode_encode (.ldImm x nn), decode_encode (.ldReg x y), ?_, ?_⟩
  · exact ⟨_, exec_of_completes rfl, State.reg_setV_self _ _ _, completed_alu_frame (.ldImm x nn) s rfl rfl⟩
  · exact ⟨_, exec_of_completes rfl, State.reg_setV_self _ _ _, completed_alu_frame (.ldReg x y) s rfl rfl⟩

/-- Settles O21: the sum of two bytes is their sum mod 256. -/
theorem addImmediateWraps : Obligations.AddImmediateWraps := by
  intro x nn s
  refine ⟨decode_encode (.addImm x nn), _, exec_of_completes rfl, ?_, completed_alu_frame (.addImm x nn) s rfl rfl⟩
  rw [completed, State.reg_setV_self, BitVec.toNat_add]

/-- Settles O22: the operations on bytes are those on their bits. -/
theorem logicIsBitwise : Obligations.LogicIsBitwise := by
  intro x y s
  refine ⟨decode_encode (.orReg x y), decode_encode (.andReg x y), decode_encode (.xorReg x y), ?_, ?_, ?_⟩
  · refine ⟨_, exec_of_completes rfl, fun k => ?_, completed_alu_frame (.orReg x y) s rfl rfl⟩
    rw [completed, State.reg_setV_self, BitVec.getLsbD_or]
  · refine ⟨_, exec_of_completes rfl, fun k => ?_, completed_alu_frame (.andReg x y) s rfl rfl⟩
    rw [completed, State.reg_setV_self, BitVec.getLsbD_and]
  · refine ⟨_, exec_of_completes rfl, fun k => ?_, completed_alu_frame (.xorReg x y) s rfl rfl⟩
    rw [completed, State.reg_setV_self, BitVec.getLsbD_xor, Bool.bne_eq_xor]

/-- Settles O27: the draw is taken before the mask is looked at. -/
theorem randomIsMasked : Obligations.RandomIsMasked := by
  intro x nn s
  refine ⟨decode_encode (.rnd x nn), _, exec_of_completes rfl, fun k => ?_, rfl,
    completed_alu_frame (.rnd x nn) s rfl rfl⟩
  rw [completed, State.reg_setV_self, BitVec.getLsbD_and]

/-! ### Flags as numbers -/

theorem toNat_flagByte_decide (p : Prop) [Decidable p] : (flagByte (decide p)).toNat = if p then 1 else 0 := by
  by_cases h : p <;> simp [flagByte, h]

theorem toNat_flagByte_carryOut (a b : Byte) :
    (flagByte (carryOut a b)).toNat = if a.toNat + b.toNat > 255 then 1 else 0 := toNat_flagByte_decide _

theorem toNat_flagByte_strictlyGreater (a b : Byte) :
    (flagByte (strictlyGreater a b)).toNat = if a.toNat > b.toNat then 1 else 0 := toNat_flagByte_decide _

/-- Bit 0 of a byte, as a number. -/
theorem toNat_flagByte_lowBit (a : Byte) : (flagByte (lowBit a)).toNat = a.toNat % 2 := by
  have h : lowBit a = decide (a.toNat % 2 = 1) := by
    simp only [lowBit, beq_eq_decide, ← BitVec.toNat_inj, BitVec.toNat_and, show (1#8).toNat = 1 from rfl,
      Nat.and_one_is_mod]
  rw [h, toNat_flagByte_decide]
  split <;> omega

/-- Bit 7 of a byte, as a number: bit 0 once the byte is shifted right by 7. -/
theorem toNat_flagByte_highBit (a : Byte) : (flagByte (highBit a)).toNat = a.toNat / 128 := by
  have h : (a >>> 7).toNat = a.toNat / 128 := by
    rw [BitVec.toNat_ushiftRight, Nat.shiftRight_eq_div_pow]
  have ha := a.isLt
  rw [show highBit a = lowBit (a >>> 7) from rfl, toNat_flagByte_lowBit, h]
  omega

/-! ### The flag first, Vx second (42_alu.md R200) -/

/-- What the second statement of an instruction reads: VF is the new flag, every other register what it was. -/
theorem toNat_reg_setFlag (s : State) (c : Bool) (r : RegIx) :
    ((s.advance.setFlag c).reg r).toNat = if r = regF then (flagByte c).toNat else (s.reg r).toNat := by
  rw [State.setFlag_eq, State.reg_setV, apply_ite BitVec.toNat]
  rfl

/-- VF keeps the flag unless Vx is VF itself. -/
theorem reg_regF_setFlag_setV (s : State) (c : Bool) (b : Byte) {x : RegIx} (hx : x ≠ regF) :
    ((s.setFlag c).setV x b).reg regF = flagByte c := by
  rw [State.reg_setV_of_ne _ _ hx.symm, State.setFlag_eq, State.reg_setV_self]

theorem toNat_reg_subInto (s : State) (x y : RegIx) :
    ((s.subInto x y).reg x).toNat = ((s.reg x).toNat + 256 - (s.reg y).toNat) % 256 := by
  rw [State.subInto, State.reg_setV_self]
  bv_omega

theorem toNat_reg_subFrom (s : State) (x y : RegIx) :
    ((s.subFrom x y).reg x).toNat = ((s.reg y).toNat + 256 - (s.reg x).toNat) % 256 := by
  rw [State.subFrom, State.reg_setV_self]
  bv_omega

theorem toNat_reg_shiftRight (s : State) (x : RegIx) : ((s.shiftRight x).reg x).toNat = (s.reg x).toNat / 2 := by
  rw [State.shiftRight, State.reg_setV_self, BitVec.toNat_ushiftRight, Nat.shiftRight_one]

theorem toNat_reg_shiftLeft (s : State) (x : RegIx) :
    ((s.shiftLeft x).reg x).toNat = 2 * (s.reg x).toNat % 256 := by
  rw [State.shiftLeft, State.reg_setV_self, BitVec.toNat_shiftLeft, Nat.shiftLeft_eq, Nat.mul_comm, Nat.pow_one]

/-! ### The instructions that write the flag -/

/-- Settles O23: the sum and its carry are both of the values before any write. -/
theorem addSetsCarry : Obligations.AddSetsCarry := by
  intro x y s
  refine ⟨decode_encode (.addReg x y), _, exec_of_completes rfl, ?_, fun hx => ?_,
    completed_alu_frame (.addReg x y) s rfl rfl⟩
  · rw [completed, State.reg_setV_self, BitVec.toNat_add]
  · rw [completed, reg_regF_setFlag_setV _ _ _ hx, toNat_flagByte_carryOut]

/-- Settles O24: the subtraction reads its operands after the comparison was written to VF. -/
theorem subComparesThenSubtracts : Obligations.SubComparesThenSubtracts := by
  intro x y s
  refine ⟨decode_encode (.sub x y), _, _, _, _, rfl, rfl, rfl, exec_of_completes rfl, ?_, fun hx => ?_,
    completed_alu_frame (.sub x y) s rfl rfl⟩
  · rw [completed, toNat_reg_subInto, toNat_reg_setFlag, toNat_reg_setFlag, toNat_flagByte_strictlyGreater]
  · rw [completed, State.subInto, reg_regF_setFlag_setV _ _ _ hx, toNat_flagByte_strictlyGreater]

/-- Settles O25: the reverse comparison is written to VF, then the reverse subtraction reads its operands. -/
theorem subnComparesThenSubtracts : Obligations.SubnComparesThenSubtracts := by
  intro x y s
  refine ⟨decode_encode (.subn x y), _, _, _, _, rfl, rfl, rfl, exec_of_completes rfl, ?_, fun hx => ?_,
    completed_alu_frame (.subn x y) s rfl rfl⟩
  · rw [completed, toNat_reg_subFrom, toNat_reg_setFlag, toNat_reg_setFlag, toNat_flagByte_strictlyGreater]
  · rw [completed, State.subFrom, reg_regF_setFlag_setV _ _ _ hx, toNat_flagByte_strictlyGreater]

/-- Settles O26: where X = F the shift reads the bit that was shifted out, which is 0 or 1. -/
theorem shiftsMoveOneBit : Obligations.ShiftsMoveOneBit := by
  intro x y s
  refine ⟨decode_encode (.shr x y), decode_encode (.shl x y), ?_, ?_⟩
  · refine ⟨_, exec_of_completes rfl, ?_, fun hx => ?_, completed_alu_frame (.shr x y) s rfl rfl⟩
    · rw [completed, toNat_reg_shiftRight, toNat_reg_setFlag, toNat_flagByte_lowBit]
      split <;> omega
    · rw [completed, State.shiftRight, reg_regF_setFlag_setV _ _ _ hx, toNat_flagByte_lowBit]
  · refine ⟨_, exec_of_completes rfl, ?_, fun hx => ?_, completed_alu_frame (.shl x y) s rfl rfl⟩
    · rw [completed, toNat_reg_shiftLeft, toNat_reg_setFlag, toNat_flagByte_highBit]
      split <;> omega
    · rw [completed, State.shiftLeft, reg_regF_setFlag_setV _ _ _ hx, toNat_flagByte_highBit]

end Sys2Proof.Machine
end

section
/-! SUPPORT. Index and memory (43_index_memory.md): what writing I leaves, the frame of the instructions that advance PC,
and what FX33, FX55 and FX65 leave in memory and in the registers. -/

namespace Sys2Proof.Machine

/-! ### The index register -/

/-- I holds 12 bits (10_state.md R34). -/
theorem setI_i_toNat (s : State) (n : Nat) : (s.setI n).i.toNat = n % 4096 := by
  rw [State.setI_i, BitVec.toNat_ofNat]

/-- The highest glyph address, 255 * 5, fits into I (43_index_memory.md R252). -/
theorem glyphAddr_lt (b : Byte) : glyphAddr b < 4096 := by
  have hb := b.isLt
  rw [glyphAddr]
  omega

/-- An instruction that completes with PC advanced keeps every piece but PC and those it may write. -/
theorem completed_advance_frame (i : Instr) (s : State) {ps : List Part} (hpc : (completed i s).pc = s.advance.pc)
    (hw : .pc :: writes i ⊆ ps) : Advanced s (completed i s) ∧ KeepsAllBut ps s (completed i s) :=
  ⟨hpc.trans (advance_advanced s), (completed_keeps i s).mono hw⟩

/-- Settles O28: each of the three writes I alone, and keeps the low 12 bits. -/
theorem indexIsWritten : Obligations.IndexIsWritten := by
  intro x nnn s
  refine ⟨decode_encode (.ldI nnn), decode_encode (.addI x), decode_encode (.ldF x), ?_, ?_, ?_⟩
  · refine ⟨_, exec_of_completes rfl, ?_, completed_advance_frame (.ldI nnn) s rfl (by simp [writes])⟩
    rw [completed, State.setI_i, BitVec.ofNat_toNat, BitVec.setWidth_eq]
  · refine ⟨_, exec_of_completes rfl, ?_, completed_advance_frame (.addI x) s rfl (by simp [writes])⟩
    rw [completed, setI_i_toNat]
  · refine ⟨_, exec_of_completes rfl, ?_, completed_advance_frame (.ldF x) s rfl (by simp [writes])⟩
    rw [completed, setI_i_toNat, Nat.mod_eq_of_lt (glyphAddr_lt _), glyphAddr]

/-! ### Data accesses above 0xFFF -/

/-- An instruction whose fault is that of its access to the `n` bytes from I on halts where that access faults. -/
theorem exec_haltsWith_of_faults {i : Instr} {s : State} {n : Nat} (hi : raised i s = dataFault s n)
    (h : accessFaults s n) :
    ∃ t, exec i s = .next t ∧ HaltsWith s t .memoryBounds (some (encode i)) 0x1000 :=
  exec_haltsWith (hi.trans (dataFault_eq_some.mpr ⟨h, rfl⟩))

/-! ### Bytes stored from I on -/

/-- Inside the address space the byte `k` on from I is the `k`-th byte stored. -/
theorem stored_read_offset {s : State} {bs : List Byte} {k : Nat} (hk : k < bs.length)
    (ha : s.i.toNat + k ≤ 0xFFF) : (s.stored bs).mem.read (s.i.toNat + k) = bs.getD k 0 := by
  refine (read_writeList_take s.mem s.i.toNat (s.i.toNat + k) bs).trans ?_
  rw [if_pos (by omega), Nat.add_sub_cancel_left]

/-- Every byte outside the range stored, and every one above 0xFFF, reads as before. -/
theorem stored_read_outside {s : State} {bs : List Byte} {a : Nat}
    (ha : a < s.i.toNat ∨ s.i.toNat + bs.length ≤ a ∨ 0xFFF < a) : (s.stored bs).mem.read a = s.mem.read a :=
  (read_writeList_take s.mem s.i.toNat a bs).trans (if_neg (by omega))

/-! ### FX33 -/

/-- The three digits fit into their bytes (43_index_memory.md R253). -/
theorem map_toNat_bcdDigits (b : Byte) :
    (bcdDigits b).map BitVec.toNat = [b.toNat / 100, b.toNat / 10 % 10, b.toNat % 10] := by
  have hb := b.isLt
  have hhundreds : b.toNat / 100 < 2 ^ 8 := by omega
  have htens : b.toNat / 10 % 10 < 2 ^ 8 := by omega
  have hunits : b.toNat % 10 < 2 ^ 8 := by omega
  simp only [bcdDigits, List.map, BitVec.toNat_ofNat, Nat.mod_eq_of_lt hhundreds, Nat.mod_eq_of_lt htens,
    Nat.mod_eq_of_lt hunits]

/-- The digit `k` on from I, as a number. -/
theorem completed_ldB_digit {x : RegIx} {s : State} {k : Nat} (hk : k < 3) (ha : s.i.toNat + k ≤ 0xFFF) :
    ((completed (.ldB x) s).mem.read (s.i.toNat + k)).toNat =
      [(s.reg x).toNat / 100, (s.reg x).toNat / 10 % 10, (s.reg x).toNat % 10].getD k 0 := by
  rw [← map_toNat_bcdDigits, completed, stored_read_offset hk ha]
  exact (List.getD_map _ 0 BitVec.toNat).symm

/-- Settles O29: where the access goes on the digits are stored from I on; else it raises at 0x1000. -/
theorem bcdStoresDigits : Obligations.BcdStoresDigits := by
  intro x s
  refine ⟨decode_encode (.ldB x), fun hgoes => ?_, exec_haltsWith_of_faults rfl⟩
  refine ⟨_, exec_of_completes (dataFault_eq_none.mpr hgoes), completed_ldB_digit (k := 0) (by decide),
    completed_ldB_digit (by decide), completed_ldB_digit (by decide), fun a ha => ?_, rfl,
    completed_advance_frame (.ldB x) s rfl (by simp [writes])⟩
  have hlen : (bcdDigits (s.reg x)).length = 3 := rfl
  exact stored_read_outside (by omega)

/-! ### FX55 -/

/-- FX55 leaves every byte outside I to I + X as it was (43_index_memory.md R254). -/
theorem completed_storeRegs_read_outside {x : RegIx} {s : State} {a : Nat}
    (ha : a < s.i.toNat ∨ s.i.toNat + x.val < a ∨ 0xFFF < a) :
    (completed (.storeRegs x) s).mem.read a = s.mem.read a := by
  have hlen := length_vUpTo s x
  exact stored_read_outside (by omega)

/-- One event for each register that FX55 cannot store (60_exceptions.md R359). -/
theorem completed_storeRegs_events (x : RegIx) (s : State) :
    (completed (.storeRegs x) s).events = s.events ++ ignoredEvents s (x.val + 1) := by
  rw [← length_vUpTo s x]
  rfl

/-- Settles O30: where the access goes on the registers are stored from I on; else it raises at 0x1000. -/
theorem storeRegistersAndAdvance : Obligations.StoreRegistersAndAdvance := by
  intro x s
  refine ⟨decode_encode (.storeRegs x), fun hgoes => ?_, exec_haltsWith_of_faults rfl⟩
  exact ⟨_, exec_of_completes (dataFault_eq_none.mpr hgoes), fun r => completed_storeRegs_read_reg,
    fun a => completed_storeRegs_read_outside, setI_i_toNat _ _, completed_storeRegs_events x s,
    completed_advance_frame (.storeRegs x) s rfl (by simp [writes])⟩

/-! ### FX65 -/

/-- The bytes of a data read, by their offset. -/
theorem getD_dataBytes (s : State) (n k : Nat) (d : Byte) :
    (dataBytes s n).getD k d = if k < n then dataByte s k else d := by
  rw [dataBytes, List.getD_eq_getElem?_getD, List.getElem?_map]
  split
  · next h => rw [List.getElem?_range h]; rfl
  · next h => rw [List.getElem?_eq_none (by simpa using h)]; rfl

/-- Every register after FX65 (43_index_memory.md R255). -/
theorem completed_loadRegs_reg (x r : RegIx) (s : State) :
    (completed (.loadRegs x) s).reg r = if r ≤ x then dataByte s r.val else s.reg r := by
  refine (State.reg_setVList _ _ r).trans ((getD_dataBytes s _ _ _).trans ?_)
  simp only [Nat.lt_succ_iff, Fin.le_def]
  rfl

/-- Settles O31: where the access goes on the registers are loaded from I on; else it raises at 0x1000. -/
theorem loadRegistersAndAdvance : Obligations.LoadRegistersAndAdvance := by
  intro x s
  refine ⟨decode_encode (.loadRegs x), fun hgoes => ?_, exec_haltsWith_of_faults rfl⟩
  exact ⟨_, exec_of_completes (dataFault_eq_none.mpr hgoes), fun r => completed_loadRegs_reg x r s, setI_i_toNat _ _,
    rfl, completed_advance_frame (.loadRegs x) s rfl (by simp [writes])⟩

/-! ### FX55 and then FX65 -/

/-- Settles O32: FX65 reads register r at the address where FX55 stored it. -/
theorem storeThenLoadRestores : Obligations.StoreThenLoadRestores := by
  intro x s v' hfits
  have hgoes : accessGoesOn s (x.val + 1) := .inl (by omega)
  refine ⟨_, _, exec_of_completes (dataFault_eq_none.mpr hgoes), exec_of_completes (dataFault_eq_none.mpr ?_),
    fun r hr => ?_⟩
  · exact hgoes
  · have hrx : r.val ≤ x.val := hr
    have ha : s.i.toNat + r.val ≤ 0xFFF := by omega
    rw [completed_loadRegs_reg, if_pos hr]
    exact (if_pos ha).trans (completed_storeRegs_read_reg hr ha)

end Sys2Proof.Machine
end

section
/-! SUPPORT. The display (44_display.md). A draw is a sequence of plots at the pixels that the set bits of the sprite land
on; no two of them land on one pixel, so each of those pixels is flipped once, and the collision is that one of them was on
before the draw. -/

namespace Sys2Proof.Machine

/-! ### CLS -/

@[simp] theorem Frame.pixel_clear (x : Fin 64) (y : Fin 32) : Frame.clear.pixel x y = false := by
  simp [Frame.clear, Frame.pixel]

/-- Settles O34: the clear frame has no pixel on, and it is the frame that is emitted. -/
theorem clearScreen : Obligations.ClearScreen := fun s =>
  ⟨decode_encode .cls, _, exec_of_completes rfl, Frame.pixel_clear, rfl,
    completed_advance_frame .cls s rfl (by simp [writes])⟩

/-! ### A sequence of plots -/

/-- Plots at the pixels listed, one after another. -/
def Canvas.plotAll (ps : List (Fin 64 × Fin 32)) (c : Canvas) : Canvas := ps.foldl (fun c p => c.plot p.1 p.2) c

theorem Canvas.plotAll_cons (p : Fin 64 × Fin 32) (ps : List (Fin 64 × Fin 32)) (c : Canvas) :
    c.plotAll (p :: ps) = (c.plot p.1 p.2).plotAll ps := rfl

/-- A plot leaves every other pixel as it was. -/
theorem Canvas.pixel_plot_of_ne (c : Canvas) {p q : Fin 64 × Fin 32} (h : q ≠ p) :
    (c.plot p.1 p.2).fb.pixel q.1 q.2 = c.fb.pixel q.1 q.2 := by
  rw [Canvas.pixel_plot, if_neg fun e => h (Prod.ext e.1 e.2)]

/-- Plots at different pixels flip those pixels and no other. -/
theorem Canvas.pixel_plotAll {ps : List (Fin 64 × Fin 32)} (hps : ps.Nodup) (c : Canvas) (q : Fin 64 × Fin 32) :
    (c.plotAll ps).fb.pixel q.1 q.2 = (c.fb.pixel q.1 q.2 != decide (q ∈ ps)) := by
  induction ps generalizing c with
  | nil => simp [Canvas.plotAll]
  | cons p ps ih =>
    obtain ⟨hp, hps⟩ := List.nodup_cons.mp hps
    rw [Canvas.plotAll_cons, ih hps]
    by_cases hq : q = p
    · subst hq
      simp [Canvas.pixel_plot, hp]
    · simp [Canvas.pixel_plot_of_ne c hq, hq]

/-- Plots at different pixels collide where one of those pixels was on before them all. -/
theorem Canvas.hit_plotAll {ps : List (Fin 64 × Fin 32)} (hps : ps.Nodup) (c : Canvas) :
    (c.plotAll ps).hit = true ↔ c.hit = true ∨ ∃ p ∈ ps, c.fb.pixel p.1 p.2 = true := by
  induction ps generalizing c with
  | nil => simp [Canvas.plotAll]
  | cons p ps ih =>
    obtain ⟨hp, hps⟩ := List.nodup_cons.mp hps
    have hkept : ∀ q ∈ ps, (c.plot p.1 p.2).fb.pixel q.1 q.2 = c.fb.pixel q.1 q.2 :=
      fun q hq => Canvas.pixel_plot_of_ne c fun e => hp (e ▸ hq)
    rw [Canvas.plotAll_cons, ih hps, Canvas.hit_plot, Bool.or_eq_true, or_assoc, List.exists_mem_cons_iff]
    exact or_congr_right (or_congr_right (exists_congr fun q => and_congr_right fun hq => by rw [hkept q hq]))

/-! ### A sprite as a sequence of plots -/

/-- The pixel that row `r`, column `c` of a sprite at (x0, y0) lands on, wrapping (44_display.md R290). -/
def landsOn (x0 y0 : Nat) (rc : Nat × Nat) : Fin 64 × Fin 32 := (Fin.ofNat 64 (x0 + rc.2), Fin.ofNat 32 (y0 + rc.1))

/-- The pixels that the set bits of the first `n` rows land on, in the order of the draw. -/
def spritePixels (x0 y0 n : Nat) (rows : Nat → Byte) : List (Fin 64 × Fin 32) :=
  ((List.range n ×ˢ List.range 8).filter fun rc => spriteBit (rows rc.1) rc.2).map (landsOn x0 y0)

/-- Rows drawn one below another, as a loop over their numbers. -/
theorem Canvas.drawRows_map_range (x0 y0 n : Nat) (rows : Nat → Byte) (c : Canvas) :
    Canvas.drawRows x0 y0 ((List.range n).map rows) c =
      (List.range n).foldl (fun c r => c.drawRow (rows r) x0 (Fin.ofNat 32 (y0 + r))) c := by
  induction n generalizing y0 rows c with
  | zero => rfl
  | succ n ih =>
    rw [List.range_succ_eq_map, List.map_cons, List.map_map, Canvas.drawRows, ih, List.foldl_cons, List.foldl_map]
    simp only [Function.comp_apply, Nat.add_right_comm, Nat.add_assoc, Nat.add_zero, Nat.succ_eq_add_one]

/-- A loop over pairs is a loop in a loop. -/
theorem foldl_product {α β γ : Type} (f : γ → α × β → γ) (as : List α) (bs : List β) (c : γ) :
    (as ×ˢ bs).foldl f c = as.foldl (fun c a => bs.foldl (fun c b => f c (a, b)) c) c :=
  List.foldl_flatMap.trans (by simp only [List.foldl_map])

/-- Drawing a sprite is plotting its pixels. -/
theorem Canvas.drawRows_eq_plotAll (x0 y0 n : Nat) (rows : Nat → Byte) (c : Canvas) :
    Canvas.drawRows x0 y0 ((List.range n).map rows) c = c.plotAll (spritePixels x0 y0 n rows) := by
  rw [Canvas.drawRows_map_range, Canvas.plotAll, spritePixels, List.foldl_map, List.foldl_filter,
    foldl_product]
  rfl

/-- No two bits of a sprite of at most 32 rows land on one pixel. -/
theorem nodup_spritePixels (x0 y0 : Nat) {n : Nat} (hn : n ≤ 32) (rows : Nat → Byte) :
    (spritePixels x0 y0 n rows).Nodup := by
  refine List.Nodup.map_on ?_ ((List.nodup_range.product List.nodup_range).filter _)
  rintro ⟨r, k⟩ hrk ⟨r', k'⟩ hrk' he
  simp only [List.mem_filter, List.mem_product, List.mem_range] at hrk hrk'
  simp only [landsOn, Prod.mk.injEq, Fin.ext_iff, Fin.val_ofNat] at he
  exact Prod.ext (by omega) (by omega)

/-- The mask of column `k` picks bit 7 - k of the row (44_display.md R292). -/
theorem spriteBit_eq_getLsbD (row : Byte) {k : Nat} (hk : k < 8) : spriteBit row k = row.getLsbD (7 - k) := by
  have hmask : ∀ k < 8, 0x80#8 >>> k = BitVec.twoPow 8 (7 - k) ∧ BitVec.twoPow 8 (7 - k) ≠ 0#8 := by decide
  obtain ⟨heq, hne⟩ := hmask k hk
  rw [spriteBit, heq, BitVec.and_twoPow]
  cases row.getLsbD (7 - k) with
  | false => rfl
  | true => exact bne_iff_ne.mpr hne

/-- The pixels plotted are those that the sprite covers. -/
theorem mem_spritePixels_iff (s : State) (x y : RegIx) (n : Nat) (px : Fin 64) (py : Fin 32) :
    (px, py) ∈ spritePixels (s.reg x).toNat (s.reg y).toNat n (dataByte s) ↔ spriteCovers s x y n px py = true := by
  simp only [spritePixels, landsOn, spriteCovers, List.mem_map, List.mem_filter, List.mem_product, List.mem_range,
    List.any_eq_true, Prod.exists, Prod.mk.injEq, Fin.ext_iff, Fin.val_ofNat, Bool.and_eq_true, beq_iff_eq]
  constructor
  · rintro ⟨r, k, ⟨⟨hr, hk⟩, hbit⟩, hland⟩
    exact ⟨r, hr, k, hk, spriteBit_eq_getLsbD _ hk ▸ hbit, hland⟩
  · rintro ⟨r, hr, k, hk, hbit, hland⟩
    exact ⟨r, k, ⟨⟨hr, hk⟩, spriteBit_eq_getLsbD _ hk ▸ hbit⟩, hland⟩

/-! ### DXYN -/

theorem drawnCanvas_eq_plotAll (x y : RegIx) (n : Nat) (s : State) :
    drawnCanvas x y n s =
      Canvas.plotAll (spritePixels (s.reg x).toNat (s.reg y).toNat n (dataByte s)) ⟨s.fb, false⟩ :=
  Canvas.drawRows_eq_plotAll _ _ _ _ _

theorem toNat_le_32 (n : BitVec 4) : n.toNat ≤ 32 := Nat.le_trans (Nat.le_of_lt n.isLt) (by decide)

/-- DXYN flips the pixels that the sprite covers and no other (44_display.md R292). -/
theorem completed_drw_pixel (x y : RegIx) (n : BitVec 4) (s : State) (px : Fin 64) (py : Fin 32) :
    (completed (.drw x y n) s).fb.pixel px py = (s.fb.pixel px py != spriteCovers s x y n.toNat px py) := by
  have h := Canvas.pixel_plotAll
    (nodup_spritePixels (s.reg x).toNat (s.reg y).toNat (toNat_le_32 n) (dataByte s)) ⟨s.fb, false⟩ (px, py)
  simp only [← drawnCanvas_eq_plotAll, mem_spritePixels_iff, Bool.decide_eq_true] at h
  exact h

/-- DXYN collides where a pixel that the sprite covers was on (44_display.md R292). -/
theorem drawnCanvas_hit_iff (x y : RegIx) (n : BitVec 4) (s : State) :
    (drawnCanvas x y n.toNat s).hit = true ↔ spriteHits s x y n.toNat := by
  rw [drawnCanvas_eq_plotAll, Canvas.hit_plotAll (nodup_spritePixels _ _ (toNat_le_32 n) _)]
  simp only [Bool.false_eq_true, false_or, Prod.exists, mem_spritePixels_iff, spriteHits]

theorem completed_drw_regF (x y : RegIx) (n : BitVec 4) (s : State) :
    (completed (.drw x y n) s).reg regF = flagByte (drawnCanvas x y n.toNat s).hit := State.reg_setV_self _ _ _

theorem completed_drw_regF_of_hits {x y : RegIx} {n : BitVec 4} {s : State} (h : spriteHits s x y n.toNat) :
    (completed (.drw x y n) s).reg regF = 1 := by
  rw [completed_drw_regF, (drawnCanvas_hit_iff x y n s).mpr h]
  rfl

theorem completed_drw_regF_of_not_hits {x y : RegIx} {n : BitVec 4} {s : State} (h : ¬ spriteHits s x y n.toNat) :
    (completed (.drw x y n) s).reg regF = 0 := by
  rw [completed_drw_regF, Bool.eq_false_iff.mpr (mt (drawnCanvas_hit_iff x y n s).mp h)]
  rfl

/-- Settles O35: where the rows can be read the draw flips what the sprite covers; else it raises at 0x1000. -/
theorem drawXorsSprite : Obligations.DrawXorsSprite := by
  intro x y n s
  refine ⟨decode_encode (.drw x y n), fun hgoes => ?_, exec_haltsWith_of_faults rfl⟩
  exact ⟨_, exec_of_completes (dataFault_eq_none.mpr hgoes), completed_drw_pixel x y n s, completed_drw_regF_of_hits,
    completed_drw_regF_of_not_hits, rfl, completed_keepsRegs (.drw x y n) s,
    completed_advance_frame (.drw x y n) s rfl (by simp [writes])⟩

/-! ### DXYN twice -/

/-- Where neither coordinate is in VF, the sprite covers the same pixels after a draw: its place and its rows are kept. -/
theorem spriteCovers_completed_drw {x y : RegIx} (hx : x ≠ regF) (hy : y ≠ regF) (n : BitVec 4) (s : State) (m : Nat)
    (px : Fin 64) (py : Fin 32) :
    spriteCovers (completed (.drw x y n) s) x y m px py = spriteCovers s x y m px py := by
  have hregs : ∀ r : RegIx, r ≠ regF → (completed (.drw x y n) s).reg r = s.reg r :=
    fun r hr => completed_keepsRegs (.drw x y n) s r (by simpa [writesRegs] using hr)
  have hbytes : dataByte (completed (.drw x y n) s) = dataByte s := rfl
  simp only [spriteCovers, hregs x hx, hregs y hy, hbytes]

/-- After a draw the sprite hits where a pixel that it covers was off before (44_display.md R292, Log 18). -/
theorem spriteHits_completed_drw_iff {x y : RegIx} (hx : x ≠ regF) (hy : y ≠ regF) (n : BitVec 4) (s : State) :
    spriteHits (completed (.drw x y n) s) x y n.toNat ↔
      ∃ px py, spriteCovers s x y n.toNat px py = true ∧ s.fb.pixel px py = false := by
  refine exists_congr fun px => exists_congr fun py => ?_
  rw [spriteCovers_completed_drw hx hy, completed_drw_pixel]
  refine and_congr_right fun hcov => ?_
  rw [hcov]
  simp

/-- Settles O36: both draws flip the same pixels. -/
theorem drawTwiceRestores : Obligations.DrawTwiceRestores := by
  intro x y n s hx hy hgoes
  refine ⟨completed (.drw x y n) s, completed (.drw x y n) (completed (.drw x y n) s),
    exec_of_completes (dataFault_eq_none.mpr hgoes), exec_of_completes (dataFault_eq_none.mpr hgoes),
    fun px py => ?_, fun hoff => ?_, fun hon => ?_⟩
  · rw [completed_drw_pixel, completed_drw_pixel, spriteCovers_completed_drw hx hy]
    simp
  · exact completed_drw_regF_of_hits ((spriteHits_completed_drw_iff hx hy n s).mpr hoff)
  · refine completed_drw_regF_of_not_hits fun hhits => ?_
    obtain ⟨px, py, hcov, hoff⟩ := (spriteHits_completed_drw_iff hx hy n s).mp hhits
    rw [hon px py hcov] at hoff
    cases hoff

end Sys2Proof.Machine
end

section
/-! SUPPORT. Keypad and timers (45_keypad_timers.md): where the keypad read faults, and which key the poll takes. -/

namespace Sys2Proof.Machine

/-! ### Skips on a key -/

/-- An index of the keypad names a key (60_exceptions.md R356). -/
theorem keyFault_eq_none {k : Byte} (h : k.toNat ≤ 0xF) : keyFault k = none := if_neg (Nat.not_lt.mpr h)

/-- An instruction whose fault is that of a keypad read at `k` halts where `k` is above 0xF. -/
theorem exec_haltsWith_of_keyFault {i : Instr} {s : State} {k : Byte} (hi : raised i s = keyFault k)
    (h : 0xF < k.toNat) :
    ∃ t, exec i s = .next t ∧ HaltsWith s t .keyIndexRange (some (encode i)) k.toNat :=
  exec_haltsWith (hi.trans (keyFault_eq_some.mpr ⟨h, rfl⟩))

/-- Settles O37: with an index of the keypad both are skips, on the key that Vx names; else both raise at Vx. -/
theorem skipsOnKey : Obligations.SkipsOnKey := by
  intro x s
  refine ⟨decode_encode (.skp x), decode_encode (.sknp x), fun hk => ⟨?_, ?_⟩, fun hk => ⟨?_, ?_⟩⟩
  · exact exec_skips (keyFault_eq_none hk) rfl
  · exact exec_skips (keyFault_eq_none hk) rfl
  · exact exec_haltsWith_of_keyFault rfl hk
  · exact exec_haltsWith_of_keyFault rfl hk

/-! ### The poll -/

/-- The lowest pressed key is pressed, and no key below it is (45_keypad_timers.md R322). -/
theorem lowestKey_eq_some_iff {s : State} {k : Nat} :
    s.lowestKey = some k ↔ s.key k = true ∧ k < 16 ∧ ∀ j, j < k → s.key j = false := by
  simp [State.lowestKey, List.find?_range_eq_some]

theorem lowestKey_eq_none_iff {s : State} : s.lowestKey = none ↔ ∀ k, k < 16 → s.key k = false := by
  simp [State.lowestKey]

/-- A key number fits into a register. -/
theorem toNat_polledKey_of_lowest {s : State} {k : Nat} (hk : k < 16) (h : s.lowestKey = some k) (x : RegIx) :
    (polledKey s x).toNat = k := by
  have hfits : k < 2 ^ 8 := Nat.lt_trans hk (by decide)
  rw [polledKey, h, Option.map_some, Option.getD_some, BitVec.toNat_ofNat, Nat.mod_eq_of_lt hfits]

theorem polledKey_of_none {s : State} (h : s.lowestKey = none) (x : RegIx) : polledKey s x = s.reg x := by
  rw [polledKey, h, Option.map_none, Option.getD_none]

/-- Settles O38: the poll writes Vx in every case, with no key pressed the value that Vx held. -/
theorem keyPollTakesLowest : Obligations.KeyPollTakesLowest := by
  intro x s
  have hx : (completed (.ldVxK x) s).reg x = polledKey s x := State.reg_setV_self _ _ _
  refine ⟨decode_encode (.ldVxK x), _, exec_of_completes rfl, fun k hk hpressed hbelow => ?_, fun hnone => ?_,
    completed_alu_frame (.ldVxK x) s rfl rfl⟩
  · rw [hx, toNat_polledKey_of_lowest hk (lowestKey_eq_some_iff.mpr ⟨hpressed, hk, hbelow⟩)]
  · rw [hx, polledKey_of_none (lowestKey_eq_none_iff.mpr hnone)]

/-! ### The timers -/

/-- The tone sounds exactly while ST is not 0 (60_exceptions.md R388). -/
theorem soundActive_iff (s : State) : s.soundActive = true ↔ s.st.toNat ≠ 0 := by
  rw [State.soundActive, bne_iff_ne, ne_eq, ← BitVec.toNat_inj]
  rfl

/-- Settles O39: each writes one piece after the advance, and the sound ports show ST as it then is. -/
theorem timersAreReadAndLoaded : Obligations.TimersAreReadAndLoaded := by
  intro x s
  refine ⟨decode_encode (.ldVxDt x), decode_encode (.ldDtVx x), decode_encode (.ldStVx x), ?_, ?_, ?_⟩
  · exact ⟨_, exec_of_completes rfl, State.reg_setV_self _ _ _, completed_alu_frame (.ldVxDt x) s rfl rfl⟩
  · exact ⟨_, exec_of_completes rfl, rfl, completed_advance_frame (.ldDtVx x) s rfl (by simp [writes])⟩
  · exact ⟨_, exec_of_completes rfl, rfl, rfl, soundActive_iff _,
      completed_advance_frame (.ldStVx x) s rfl (by simp [writes])⟩

end Sys2Proof.Machine
end

section
/-! SUPPORT. Initialisation and load errors (60_exceptions.md R351, R352, 70_reset_and_hazards.md R400-R404): what the
zeroed state of `init` holds, what it keeps of the state before, and what a load error adds to it. -/

namespace Sys2Proof.Machine

/-! ### The zeroed state -/

/-- The first 80 bytes of the zeroed state are the font's (70_reset_and_hazards.md R401). -/
theorem zeroed_mem_read_font (s : State) (a : Fin 80) : (zeroed s).mem.read a.val = s.font[a.val] :=
  (memReset_read s.font a.val).trans (dif_pos a.isLt)

/-- Above the font the zeroed state's memory is 0 (70_reset_and_hazards.md R401). -/
theorem zeroed_mem_read_above_font (s : State) {a : Nat} (ha : 80 ≤ a) : (zeroed s).mem.read a = 0 :=
  (memReset_read s.font a).trans (dif_neg (Nat.not_lt.mpr ha))

/-- With the call taken off, zeroing at a boundary keeps the parameters, the draws and the events. -/
theorem zeroed_keeps {s : State} (hphase : s.phase = .boundary) (cs : List HostCall) :
    KeepsAllBut [.v, .i, .pc, .sp, .stack, .dt, .st, .mem, .fb, .keys, .status, .fault, .calls] s
      (zeroed { s with calls := cs }) := by
  intro q hq; cases q <;> simp_all [Part.same, zeroed]

/-! ### A load error -/

theorem failLoad_keeps (code : FaultCode) (rom : List Byte) (s : State) :
    KeepsAllBut [.status, .fault] s (failLoad code rom s) := by
  intro q hq; cases q <;> simp_all [Part.same, failLoad]

/-- A ROM of no byte or of more than 3583 fails the load, with the code of the check it does not pass
(70_reset_and_hazards.md R402, R404). -/
theorem initRom_of_bad_length {rom : List Byte} (hlen : rom.length = 0 ∨ 3583 < rom.length) (s : State) :
    initRom rom s = failLoad (if rom.length = 0 then .romEmpty else .romTooLarge) rom (zeroed s) := by
  by_cases hempty : rom.length = 0
  · rw [initRom, loadCheck, if_pos hempty, if_pos hempty]
  · have hlarge : rom.length > Config.romMaxLen := hlen.resolve_left hempty
    rw [initRom, loadCheck, if_neg hempty, if_pos hlarge, if_neg hempty]

/-- Settles O50: the load error is recorded over the zeroed state, which holds what reset holds, under the font. -/
theorem initRefusesBadLength : Obligations.InitRefusesBadLength := by
  intro s rom cs hphase hcalls hlen
  obtain ⟨hv, hi, hpc, hsp, hstack, hdt, hst, hkeys, -, -, -, -, hpixel, -, -⟩ := resetHoldsInitialValues
  have hstep := (step_of_call hphase hcalls).trans
    (congrArg Host.Outcome.next (initRom_of_bad_length hlen { s with calls := cs }))
  refine ⟨_, hstep, rfl, rfl, hpc, hi, hsp, hdt, hst, hkeys, hv, hstack, hpixel, zeroed_mem_read_font _,
    fun a => zeroed_mem_read_above_font _, rfl, ?_⟩
  exact ((zeroed_keeps hphase cs).trans (failLoad_keeps _ rom _)).mono (by decide)

end Sys2Proof.Machine
end

section
/-! SUPPORT. A successful `init` (70_reset_and_hazards.md R400-R402, R405): the ROM placed over the zeroed state, and the
ROMs that leave memory as the zeroing left it. -/

namespace Sys2Proof.Machine

/-! ### Bytes placed one after another -/

theorem Memory.read_writeList_offset (m : Memory) (a : Nat) (vs : List Byte) (j : Fin vs.length) :
    (m.writeList a vs).read (a + j.val) = vs[j.val] := by
  rw [Memory.read_writeList, if_pos ⟨Nat.le_add_right _ _, Nat.add_lt_add_left j.isLt a⟩, Nat.add_sub_cancel_left,
    List.getD_eq_getElem _ _ j.isLt]

theorem Memory.read_writeList_outside (m : Memory) {a b : Nat} {vs : List Byte} (h : b < a ∨ a + vs.length ≤ b) :
    (m.writeList a vs).read b = m.read b := by
  rw [Memory.read_writeList, if_neg (by omega)]

/-- Placing bytes that a canonical memory already reads leaves the very same data. -/
theorem Memory.writeList_eq_self {m : Memory} {a : Nat} {vs : List Byte} (hm : m.wf = true)
    (ha : a + vs.length ≤ Config.memSize) (h : ∀ j : Fin vs.length, m.read (a + j.val) = vs[j.val]) :
    m.writeList a vs = m := by
  refine Memory.ext_of_wf (Memory.wf_writeList vs ha hm) hm fun b => ?_
  by_cases hb : a ≤ b ∧ b < a + vs.length
  · obtain ⟨k, rfl⟩ := Nat.exists_eq_add_of_le hb.1
    have hk : k < vs.length := Nat.lt_of_add_lt_add_left hb.2
    exact (Memory.read_writeList_offset m a vs ⟨k, hk⟩).trans (h ⟨k, hk⟩).symm
  · exact Memory.read_writeList_outside m (by omega)

/-! ### A load that succeeds -/

/-- The zeroed state with the ROM at 0x200 (70_reset_and_hazards.md R402). -/
def loaded (rom : List Byte) (s : State) : State :=
  (zeroed s).setMem ((zeroed s).mem.writeList Config.programBase rom)

/-- A ROM of 1 to 3583 bytes passes both checks of the load (70_reset_and_hazards.md R402). -/
theorem initRom_of_good_length {rom : List Byte} (hpos : 1 ≤ rom.length) (hmax : rom.length ≤ 3583) (s : State) :
    initRom rom s = loaded rom s := by
  have hempty : ¬ rom.length = 0 := Nat.ne_of_gt hpos
  have hlarge : ¬ rom.length > Config.romMaxLen := Nat.not_lt.mpr hmax
  rw [initRom, loadCheck, if_neg hempty, if_neg hlarge, loaded]

/-- The step at a boundary that serves an `init` whose ROM passes the checks. -/
theorem step_of_init {s : State} {rom : List Byte} {cs : List HostCall} (hphase : s.phase = .boundary)
    (hcalls : s.calls = .init rom :: cs) (hpos : 1 ≤ rom.length) (hmax : rom.length ≤ 3583) :
    step s = .next (loaded rom { s with calls := cs }) :=
  (step_of_call hphase hcalls).trans (congrArg Host.Outcome.next (initRom_of_good_length hpos hmax _))

/-- Below the program and above it, the loaded memory is the zeroed one. -/
theorem loaded_mem_read_outside {rom : List Byte} (s : State) {a : Nat} (h : a < 0x200 ∨ 0x200 + rom.length ≤ a) :
    (loaded rom s).mem.read a = (zeroed s).mem.read a :=
  Memory.read_writeList_outside _ h

/-- Settles O49: the registers are those of reset, and the program lies above the font over memory that is 0. -/
theorem initLoadsProgram : Obligations.InitLoadsProgram := by
  intro s rom cs hphase hcalls hpos hmax
  obtain ⟨hv, hi, hpc, hsp, hstack, hdt, hst, hkeys, -, -, -, -, hpixel, -, -⟩ := resetHoldsInitialValues
  have hfont : ∀ a : Fin 80, (loaded rom { s with calls := cs }).mem.read a.val = s.font[a.val] := fun a =>
    (loaded_mem_read_outside _ (.inl (by omega))).trans (zeroed_mem_read_font _ a)
  refine ⟨_, step_of_init hphase hcalls hpos hmax, rfl, rfl, hpc, hi, hsp, hdt, hst, hkeys, hv, hstack, hpixel, hfont,
    Memory.read_writeList_offset _ _ rom,
    fun a ha hout => (loaded_mem_read_outside _ hout).trans (zeroed_mem_read_above_font _ ha), rfl, ?_⟩
  exact ((zeroed_keeps hphase cs).trans (setMem_keeps _ _)).mono (by decide)

/-! ### A load that changes nothing -/

/-- A program of zeros leaves memory as the zeroing left it, the very same data. -/
theorem loaded_zeros {n : Nat} (hmax : n ≤ 3583) (s : State) : loaded (List.replicate n 0) s = zeroed s := by
  have hfits : Config.programBase + (List.replicate n (0 : Byte)).length ≤ Config.memSize := by
    simp only [List.length_replicate, Config.programBase, Config.memSize]
    omega
  have hmem : (zeroed s).mem.writeList Config.programBase (List.replicate n 0) = (zeroed s).mem :=
    Memory.writeList_eq_self (memReset_wf s.font) hfits fun j =>
      (zeroed_mem_read_above_font s (by simp only [Config.programBase]; omega)).trans (List.getElem_replicate _).symm
  rw [loaded, hmem]
  rfl

/-- With the default parameters the zeroed state is `State.reset` but for the model's own fields. -/
theorem zeroed_of_default {s : State} (hfont : s.font = defaultFont) (hpolicy : s.policy = .halt) :
    zeroed s = { State.reset with phase := .boundary, calls := s.calls, draws := s.draws, events := s.events } := by
  rw [zeroed, hfont, hpolicy, memReset_default]
  rfl

/-- Settles O52: a program of zeros changes nothing in the zeroed state, which is that of reset. -/
theorem initOfZerosIsReset : Obligations.InitOfZerosIsReset := by
  intro s n cs hphase hcalls hpos hmax hfont hpolicy
  have hlen : (List.replicate n (0 : Byte)).length = n := List.length_replicate
  have hstep := step_of_init hphase hcalls (hpos.trans_eq hlen.symm) (hlen.trans_le hmax)
  rw [hstep, loaded_zeros hmax, zeroed_of_default (s := { s with calls := cs }) hfont hpolicy]

end Sys2Proof.Machine
end
